-- ==== Sys2Proof/Word.lean ====
section
/-! DEFINITION. The fixed widths of the command port (`00_scope.md` R10, `30_encoding.md` R60): every
quantity of the block is unsigned (R11). -/

namespace Sys2Proof

/-- One byte of the frame buffer or of a glyph table: eight vertically stacked pixels, bit 0 topmost (R43). -/
abbrev Byte := BitVec 8

/-- One word of the command port or of the response port (R60, R70). -/
abbrev Word := BitVec 32

/-- A pixel coordinate, 16-bit unsigned (R10, R63). -/
abbrev Coord := BitVec 16

/-- A character code, 32-bit unsigned; every value is legal to the decoder (R10, R64). -/
abbrev CharCode := BitVec 32

/-- A font selector: the pixel height of the wanted font (R10, R62). -/
abbrev FontSel := BitVec 8

end Sys2Proof
end

