-- ==== Sys2Proof/Syntax.lean ====
section
/-! DEFINITION. The eight commands of `GLE-1`, one constructor per row of the opcode table (`30_encoding.md` R67),
with their operands assembled as R68 says. -/

namespace Sys2Proof

/-- A command with its operands. -/
inductive Instr
  /-- `GLYPH_FOR`: return a character's glyph (R96). -/
  | glyphFor (font : FontSel) (ch : CharCode)
  /-- `GLYPH_WIDTH`: return a character's advance width (R97). -/
  | glyphWidth (font : FontSel) (ch : CharCode)
  /-- `FONT_HEIGHT`: return a font's line height (R98). -/
  | fontHeight (font : FontSel)
  /-- `CLEAR`: zero the frame buffer (R110). -/
  | clear
  /-- `SET_PIXEL`: set or clear one pixel (R112). -/
  | setPixel (x y : Coord) (on : Bool)
  /-- `DRAW_GLYPH`: look a character up and blit it (R132). -/
  | drawGlyph (x y : Coord) (font : FontSel) (ch : CharCode)
  /-- `DRAW_STRING`: render a sequence of characters (R140); the count `N` is the length of `text`. -/
  | drawString (x y : Coord) (font : FontSel) (text : List CharCode)
  /-- `SNAPSHOT`: read out the frame buffer (R117). -/
  | snapshot
  deriving DecidableEq, Repr

/-- The names of the eight rows of the opcode map (R67). -/
inductive Op
  | glyphFor | glyphWidth | fontHeight | clear | setPixel | drawGlyph | drawString | snapshot
  deriving DecidableEq, Repr

/-- The row of the opcode map a command belongs to. -/
def Instr.op : Instr → Op
  | .glyphFor _ _ => .glyphFor
  | .glyphWidth _ _ => .glyphWidth
  | .fontHeight _ => .fontHeight
  | .clear => .clear
  | .setPixel _ _ _ => .setPixel
  | .drawGlyph _ _ _ _ => .drawGlyph
  | .drawString _ _ _ _ => .drawString
  | .snapshot => .snapshot

/-- The five formats: the list of words of a command (R65). -/
inductive Format
  /-- `H` -/
  | z
  /-- `H`, `CH` -/
  | c
  /-- `H`, `XY` -/
  | p
  /-- `H`, `XY`, `CH` -/
  | g
  /-- `H`, `XY`, `CH[0]`, …, `CH[N-1]` -/
  | s
  deriving DecidableEq, Repr

end Sys2Proof
end

