-- ==== Sys2Proof/WellFormed.lean ====
section
/-! DEFINITION. Which terms of `Instr` the port can carry. Operand widths are in the types; the one check left is
that a text fits the 16-bit count `N` of the header (`30_encoding.md` R62, R68). -/

namespace Sys2Proof

/-- The longest text one `DRAW_STRING` carries (R68). -/
def maxText : Nat := 65535

/-- The command has an encoding (R62 to R68). -/
def Instr.wf : Instr → Bool
  | .glyphFor _ _ => true
  | .glyphWidth _ _ => true
  | .fontHeight _ => true
  | .clear => true
  | .setPixel _ _ _ => true
  | .drawGlyph _ _ _ _ => true
  | .drawString _ _ _ text => decide (text.length ≤ maxText)
  | .snapshot => true

end Sys2Proof
end

