-- ==== Sys2Proof/Decode.lean ====
section
/-! DEFINITION. The command decoder and the encoder (`30_encoding.md` R60 to R69). The decoder takes the words of
`CmdQ` and answers the command at its head with the words after it, or the name of why there is none. -/

namespace Sys2Proof

/-- `H.OPC`, bits 31:24 of a header (R62). -/
def headerOpc (h : Word) : BitVec 8 := h.extractLsb' 24 8

/-- `H.FSEL`, bits 23:16 of a header (R62). -/
def headerFsel (h : Word) : FontSel := h.extractLsb' 16 8

/-- `H.ARG`, bits 15:0 of a header (R62). -/
def headerArg (h : Word) : BitVec 16 := h.extractLsb' 0 16

/-- `X`, bits 15:0 of a position word (R63). -/
def posX (xy : Word) : Coord := xy.extractLsb' 0 16

/-- `Y`, bits 31:16 of a position word (R63). -/
def posY (xy : Word) : Coord := xy.extractLsb' 16 16

/-- One row of the opcode map: a header `H` selects it when `H & mask = pattern` (R67). -/
structure OpcodeRow where
  op : Op
  format : Format
  pattern : Word
  mask : Word
  deriving DecidableEq, Repr

/-- The opcode map (R67). -/
def opcodeTable : List OpcodeRow :=
  [ ⟨.glyphFor, .c, 0x01000000, 0xFF00FFFF⟩,
    ⟨.glyphWidth, .c, 0x02000000, 0xFF00FFFF⟩,
    ⟨.fontHeight, .z, 0x03000000, 0xFF00FFFF⟩,
    ⟨.clear, .z, 0x10000000, 0xFFFFFFFF⟩,
    ⟨.setPixel, .p, 0x11000000, 0xFFFFFFFE⟩,
    ⟨.drawGlyph, .g, 0x12000000, 0xFF00FFFF⟩,
    ⟨.drawString, .s, 0x13000000, 0xFF000000⟩,
    ⟨.snapshot, .z, 0x14000000, 0xFFFFFFFF⟩ ]

/-- The header selects the row (R67). -/
def OpcodeRow.selects (r : OpcodeRow) (h : Word) : Bool := h &&& r.mask == r.pattern

/-- The row a header selects; `none` exactly for the illegal headers (R69). -/
def selectRow (h : Word) : Option OpcodeRow := opcodeTable.find? fun r => r.selects h

/-- How many words follow the header (R65, R66). -/
def operandWords (f : Format) (h : Word) : Nat :=
  match f with
  | .z => 0
  | .c => 1
  | .p => 1
  | .g => 2
  | .s => 1 + (headerArg h).toNat

/-- The length in words the header alone determines; an illegal header has length 1 (R66). -/
def commandLength (h : Word) : Nat :=
  match selectRow h with
  | none => 1
  | some r => 1 + operandWords r.format h

/-- The queue holds at least `n` words. -/
def hasWords : Nat → List Word → Bool
  | 0, _ => true
  | _ + 1, [] => false
  | n + 1, _ :: q => hasWords n q

/-- Why no command is decoded at the head of `CmdQ`. -/
inductive Reject
  /-- `CmdQ` is empty (R61). -/
  | emptyQueue
  /-- `CmdQ` holds only part of the command at its head (R61, R220). -/
  | incompleteCommand
  /-- The header selects no row of the opcode map (R69). -/
  | illegalHeader (h : Word)
  deriving DecidableEq, Repr

/-- The operands of a command whose words are all in the queue, in the layout of its row (R65, R68), and the words
after it. -/
def decodeOperands (op : Op) (h : Word) (q : List Word) : Except Reject (Instr × List Word) :=
  match op with
  | .glyphFor =>
    match q with
    | ch :: q => .ok (.glyphFor (headerFsel h) ch, q)
    | [] => .error .incompleteCommand
  | .glyphWidth =>
    match q with
    | ch :: q => .ok (.glyphWidth (headerFsel h) ch, q)
    | [] => .error .incompleteCommand
  | .fontHeight => .ok (.fontHeight (headerFsel h), q)
  | .clear => .ok (.clear, q)
  | .setPixel =>
    match q with
    | xy :: q => .ok (.setPixel (posX xy) (posY xy) (h.getLsbD 0), q)
    | [] => .error .incompleteCommand
  | .drawGlyph =>
    match q with
    | xy :: ch :: q => .ok (.drawGlyph (posX xy) (posY xy) (headerFsel h) ch, q)
    | _ => .error .incompleteCommand
  | .drawString =>
    match q with
    | xy :: q =>
      if hasWords (headerArg h).toNat q then
        .ok (.drawString (posX xy) (posY xy) (headerFsel h) (q.take (headerArg h).toNat), q.drop (headerArg h).toNat)
      else .error .incompleteCommand
    | [] => .error .incompleteCommand
  | .snapshot => .ok (.snapshot, q)

/-- The command at the head of `CmdQ` and the words after it (R60, R61, R66). -/
def decode : List Word → Except Reject (Instr × List Word)
  | [] => .error .emptyQueue
  | h :: q =>
    match selectRow h with
    | none => .error (.illegalHeader h)
    | some row => decodeOperands row.op h q

/-- The opcode of a row (R67). -/
def Op.code : Op → BitVec 8
  | .glyphFor => 0x01
  | .glyphWidth => 0x02
  | .fontHeight => 0x03
  | .clear => 0x10
  | .setPixel => 0x11
  | .drawGlyph => 0x12
  | .drawString => 0x13
  | .snapshot => 0x14

/-- A header word `OPC[31:24] FSEL[23:16] ARG[15:0]` (R62). -/
def headerWord (opc : BitVec 8) (fsel : FontSel) (arg : BitVec 16) : Word := opc ++ fsel ++ arg

/-- A position word `Y[31:16] X[15:0]` (R63). -/
def positionWord (x y : Coord) : Word := y ++ x

/-- The words of a well-formed command (R62 to R68). -/
def encode (i : Instr) : List Word :=
  match i with
  | .glyphFor font ch => [headerWord i.op.code font 0, ch]
  | .glyphWidth font ch => [headerWord i.op.code font 0, ch]
  | .fontHeight font => [headerWord i.op.code font 0]
  | .clear => [headerWord i.op.code 0 0]
  | .setPixel x y on => [headerWord i.op.code 0 (if on then 1 else 0), positionWord x y]
  | .drawGlyph x y font ch => [headerWord i.op.code font 0, positionWord x y, ch]
  | .drawString x y font text => headerWord i.op.code font (BitVec.ofNat 16 text.length) :: positionWord x y :: text
  | .snapshot => [headerWord i.op.code 0 0]

/-- The first `n` 32-bit words of the number `w`, bits 31:0 first. -/
def wordsOfNat (w : Nat) : Nat → List Word
  | 0 => []
  | n + 1 => BitVec.ofNat 32 w :: wordsOfNat (w / 2 ^ 32) n

/-- The command words whose first `nbits` bits are `w`, bit 0 the least significant bit of the first word, with
every further bit zero, as many words as the header asks for (R66). -/
def tableWords (nbits w : Nat) : List Word :=
  let given := wordsOfNat (w % 2 ^ nbits) ((nbits + 31) / 32)
  given ++ List.replicate (commandLength (BitVec.ofNat 32 (w % 2 ^ nbits)) - given.length) 0

/-- The command the decoder reads from the words of `tableWords`. -/
def decodeTableWord (nbits w : Nat) : Option Instr :=
  match decode (tableWords nbits w) with
  | .ok (i, _) => some i
  | .error _ => none

end Sys2Proof
end

