-- ==== Sys2Proof/Config.lean ====
section
/-! DEFINITION. The configuration `Cfg`, fixed at build time and changed by no command (`00_scope.md` R7 to R9).
It is the parameter of the step function: an element of `Cfg` carries the proof that it meets every constraint of
R7 and R8, so a malformed configuration cannot be built ("the model refuses it", R8; I4, I5, D26).
The pixel patterns are in no source (R9, N1): the reference tables are filled by an opaque constant. -/

namespace Sys2Proof

/-- The code of the space character, the first of the printable range (R8, R92, D10). -/
def spaceCode : Nat := 0x20

/-- The code of the last printable character (R8, R92, D10). -/
def lastPrintable : Nat := 0x7E

/-- How many printable characters there are (R8, D10). -/
def printableCount : Nat := 95

/-- A font descriptor `F` (R8). -/
structure Font where
  /-- `F.height`, pixel rows. -/
  height : Nat
  /-- `F.width`, pixel columns; also the advance width (R95). -/
  width : Nat
  /-- `F.ascii`, the glyphs of codes 0x20 to 0x7E in code order. -/
  ascii : List Byte
  /-- `F.extra_codes`, the further codes the font has, in the order they are scanned. -/
  extraCodes : List CharCode
  /-- `F.extra`, the glyphs of `extraCodes` in list order. -/
  extra : List Byte
  deriving DecidableEq, Repr

/-- `F.rows = F.height / 8` (R8). -/
def Font.rows (F : Font) : Nat := F.height / 8

/-- `F.cols = F.width` (R8). -/
def Font.cols (F : Font) : Nat := F.width

/-- `F.gsize = F.rows * F.cols`, the bytes of one glyph (R8). -/
def Font.gsize (F : Font) : Nat := F.rows * F.cols

/-- Every constraint R8 puts on the descriptor filed under the selector `fsel`. -/
def Font.wf (fsel : FontSel) (F : Font) : Bool :=
  decide (F.height = fsel.toNat ∧ F.height % 8 = 0 ∧ 8 ≤ F.height ∧ F.height ≤ 248
    ∧ 1 ≤ F.width ∧ F.width ≤ 255
    ∧ F.ascii.length = printableCount * F.gsize
    ∧ F.extraCodes.length ≤ 255 ∧ F.extraCodes.Nodup ∧ F.extraCodes.all (fun c => decide (0x80 ≤ c.toNat)) = true
    ∧ F.extra.length = F.extraCodes.length * F.gsize)

/-- The fields of a configuration, not yet checked (R7). `fonts` is the partial map `FONTS` from a selector to its
descriptor, as a list with strictly rising selectors, so that equal maps are equal lists. -/
structure CfgData where
  /-- `WIDTH`, display columns. -/
  width : Nat
  /-- `HEIGHT`, display rows. -/
  height : Nat
  /-- `FONTS`. -/
  fonts : List (FontSel × Font)
  deriving DecidableEq, Repr

/-- Every constraint of R7 and R8 with the bounds of D26. -/
def CfgData.wf (d : CfgData) : Bool :=
  decide (1 ≤ d.width ∧ d.width ≤ 65535 ∧ d.height % 8 = 0 ∧ 8 ≤ d.height ∧ d.height ≤ 65528
    ∧ (d.fonts.map fun e => e.1.toNat).Pairwise (· < ·)
    ∧ ∀ e ∈ d.fonts, Font.wf e.1 e.2 = true)

/-- A configuration of this hardware (R7): the data with the proof that R7 and R8 hold of it. -/
structure Cfg where
  data : CfgData
  ok : data.wf = true
  deriving DecidableEq, Repr

/-- Accepts data that meets R7 and R8 and refuses every other (R8, I4, I5). -/
def Cfg.check (d : CfgData) : Option Cfg :=
  if h : d.wf = true then some ⟨d, h⟩ else none

/-- `WIDTH` (R7). -/
def Cfg.width (c : Cfg) : Nat := c.data.width

/-- `HEIGHT` (R7). -/
def Cfg.height (c : Cfg) : Nat := c.data.height

/-- `PAGE = HEIGHT / 8` (R7). -/
def Cfg.pages (c : Cfg) : Nat := c.data.height / 8

/-- The bytes of the frame buffer, `PAGE * WIDTH` (R21, R40). -/
def Cfg.fbSize (c : Cfg) : Nat := c.pages * c.width

/-- `[f 0, f 1, …, f (total - 1)]`; the second argument counts the entries still to come. -/
def tabulate (f : Nat → Byte) (total : Nat) : Nat → List Byte
  | 0 => []
  | n + 1 => f (total - (n + 1)) :: tabulate f total n

theorem tabulate_length (f : Nat → Byte) (total n : Nat) : (tabulate f total n).length = n := by
  induction n with
  | zero => rfl
  | succ n ih => simp [tabulate, ih]

/-- `GlyphROM`, the open parameter of R9: byte `k` of the printable table of the reference font of height `h`.
No source gives a byte of it (N1), so it has no body and no claim can rest on a value of it. -/
opaque Config.glyphRom : Nat → Nat → Byte

/-- A reference font: `extra_codes` empty, the glyph bytes open (R9). -/
def Config.referenceFont (height width : Nat) : Font where
  height := height
  width := width
  ascii := tabulate (Config.glyphRom height) (printableCount * (height / 8 * width))
    (printableCount * (height / 8 * width))
  extraCodes := []
  extra := []

theorem Config.referenceFont_wf (fsel : FontSel) (width : Nat) (h8 : fsel.toNat % 8 = 0)
    (hlo : 8 ≤ fsel.toNat) (hhi : fsel.toNat ≤ 248) (wlo : 1 ≤ width) (whi : width ≤ 255) :
    (Config.referenceFont fsel.toNat width).wf fsel = true := by
  simp [Font.wf, Config.referenceFont, Font.gsize, Font.rows, Font.cols, tabulate_length, h8, hlo, hhi, wlo, whi]

/-- The reference configuration of R7 and R9: 128 columns, 64 rows, fonts 8 ↦ (8, 6), 16 ↦ (16, 8), 24 ↦ (24, 12). -/
def Config.referenceData : CfgData where
  width := 128
  height := 64
  fonts := [(8, Config.referenceFont 8 6), (16, Config.referenceFont 16 8), (24, Config.referenceFont 24 12)]

theorem Config.referenceData_wf : Config.referenceData.wf = true := by
  have h8 := Config.referenceFont_wf 8 6 (by decide) (by decide) (by decide) (by decide) (by decide)
  have h16 := Config.referenceFont_wf 16 8 (by decide) (by decide) (by decide) (by decide) (by decide)
  have h24 := Config.referenceFont_wf 24 12 (by decide) (by decide) (by decide) (by decide) (by decide)
  simp [CfgData.wf, Config.referenceData] at h8 h16 h24 ⊢
  exact ⟨h8, h16, h24⟩

/-- The reference configuration as a configuration of this hardware (R9). -/
def Config.reference : Cfg := ⟨Config.referenceData, Config.referenceData_wf⟩

end Sys2Proof
end

