-- ==== Sys2Proof/Machine/State.lean ====
section
/-! DEFINITION. The state of the block (`10_state.md`): the frame buffer, the two queues of the port, the working
registers, and the configuration the block was built with. -/

namespace Sys2Proof.Machine

/-- Why the machine would stop. Both are raised by the one-byte accesses to the two address spaces (R40), for an
address the space does not have. The spec says that no command makes such an access (R46, R94), and no command of
this model does; a fault where the hardware has no such access is safe. -/
inductive Fault
  /-- Raised by `fbRead` and `fbWrite`: the frame buffer has no byte at this address (R41). Safe. -/
  | noSuchCell (addr : Nat)
  /-- Raised by `Glyph.read`: the glyph table has no byte at this offset (R42). Safe. -/
  | noSuchRomByte (offset : Nat)
  deriving DecidableEq, Repr

/-- Why the model would refuse a command. -/
inductive Refusal
  /-- Raised by `exec`'s arm of an instruction that has no meaning in the model; no arm is one. Safe. -/
  | notModelled (mnemonic : String)
  deriving DecidableEq, Repr

/-- Every outcome a command can report (R191). -/
inductive Status
  /-- Code 0: the command did all its work. -/
  | ok
  /-- Code 1: the character has no glyph in the requested font. -/
  | notRepresentable
  /-- Code 2: the font selector is not configured. -/
  | unconfiguredFont
  /-- Code 3: the header matches no row of the opcode map. -/
  | illegalCommand
  deriving DecidableEq, Repr

/-- A drawing cursor `(CURX, CURY)` as `DRAW_STRING` returns it (R72). -/
structure Cursor where
  x : Coord
  y : Coord
  deriving DecidableEq, Repr

/-- One response record (R70): the fields of its header word, the cursor word where there is one, the payload. -/
structure Response where
  /-- Copy of bits 31:24 of the command's header. -/
  opc : BitVec 8
  status : Status
  /-- `VAL` (R72). -/
  val : BitVec 16
  /-- The cursor word, in `DRAW_STRING`'s records only. -/
  cursor : Option Cursor
  /-- The payload bytes, in `GLYPH_FOR`'s and `SNAPSHOT`'s records of status `OK` only. -/
  payload : List Byte
  deriving DecidableEq, Repr

/-- The working registers, with their widths (R25). They live inside one command: every command writes each one
before it reads it, and no host can read them (R28, R30). -/
structure Working where
  /-- `CURX`, drawing cursor column. -/
  curX : BitVec 16
  /-- `CURY`, drawing cursor row. -/
  curY : BitVec 16
  /-- `SI`, characters of the text consumed and rendered. -/
  si : BitVec 16
  /-- `P0`, first destination page. -/
  p0 : BitVec 13
  /-- `OFF`, bit offset. -/
  off : BitVec 3
  /-- `GI`, glyph index. -/
  gi : BitVec 8
  /-- `I`, local glyph row. -/
  i : BitVec 5
  /-- `J`, local glyph column. -/
  j : BitVec 8
  deriving DecidableEq, Repr

/-- The frame buffer's bytes by linear address (R41), in one canonical form: addresses strictly rising and no entry
equal to what an unlisted address reads as. -/
abbrev Memory := List Host.Cell

/-- What an unlisted address of the frame buffer reads as: its reset contents (R30). -/
def Memory.unlisted : Byte := 0x00

/-- The state of the block. -/
structure State where
  /-- `Cfg`, what the block was built with: no command writes it (R7, R22). -/
  cfg : Cfg
  /-- `FB`, the frame buffer (R21). -/
  fb : Memory
  /-- `CmdQ`, the words sent and not yet consumed, oldest first (R60). -/
  cmdQ : List Word
  /-- `RspQ`, the response records produced and not yet taken, oldest first (R70). -/
  rspQ : List Response
  /-- The working registers (R25). -/
  work : Working
  deriving DecidableEq, Repr

/-- The working registers after reset. The spec leaves them unspecified and unobservable (R30).
DESIGN CHOICE zero (log 3). -/
def Working.reset : Working where
  curX := 0
  curY := 0
  si := 0
  p0 := 0
  off := 0
  gi := 0
  i := 0
  j := 0

/-- A block built with configuration `c`, right after reset (R30, R210). -/
def State.resetWith (c : Cfg) : State where
  cfg := c
  fb := []
  cmdQ := []
  rspQ := []
  work := Working.reset

/-- The reference device right after reset (R7, R9, R30). -/
def State.reset : State := State.resetWith Config.reference

end Sys2Proof.Machine
end

