-- ==== Sys2Proof/Machine/Flags.lean ====
section
/-! DEFINITION. The block has no flags (`10_state.md` R26). What a command reports stands in its own response
record: the status codes (`60_exceptions.md` R191) and the words a record is sent as (`30_encoding.md` R70, R71). -/

namespace Sys2Proof.Machine

/-- The number of a status (R70, R191). -/
def Status.code : Status → BitVec 8
  | .ok => 0
  | .notRepresentable => 1
  | .unconfiguredFont => 2
  | .illegalCommand => 3

/-- One payload word: byte 0 in bits 7:0, byte 3 in bits 31:24 (R45, R71). -/
def payloadWord (b0 b1 b2 b3 : Byte) : Word := b3 ++ b2 ++ b1 ++ b0

/-- Payload packing, four bytes to a word, the unused high bytes of the last word zero (R45, R71). -/
def packPayload : List Byte → List Word
  | [] => []
  | [b0] => [payloadWord b0 0 0 0]
  | [b0, b1] => [payloadWord b0 b1 0 0]
  | [b0, b1, b2] => [payloadWord b0 b1 b2 0]
  | b0 :: b1 :: b2 :: b3 :: rest => payloadWord b0 b1 b2 b3 :: packPayload rest

/-- The response header `OPC[31:24] STATUS[23:16] VAL[15:0]` (R70). -/
def Response.header (r : Response) : Word := r.opc ++ r.status.code ++ r.val

/-- The cursor word, `CURY` in bits 31:16 and `CURX` in bits 15:0 (R71). -/
def Cursor.word (c : Cursor) : Word := positionWord c.x c.y

/-- The words the response port gives for a record (R70). -/
def Response.words (r : Response) : List Word :=
  r.header :: ((r.cursor.map Cursor.word).toList ++ packPayload r.payload)

end Sys2Proof.Machine
end

