-- ==== Sys2Proof/Machine/Ops.lean ====
section
/-! DEFINITION. The named operations over the two address spaces, the working registers and the port
(`20_memory.md` R40 to R49, `60_exceptions.md` R190, R202). -/

namespace Sys2Proof.Machine

/-! ### The frame buffer as sparse memory -/

/-- The canonical form: addresses strictly rising, no entry equal to what an unlisted address reads as. -/
abbrev Memory.wf (m : Memory) : Prop :=
  (m.map Prod.fst).Pairwise (· < ·) ∧ ∀ e ∈ m, e.2 ≠ Memory.unlisted

/-- Every listed address is one the frame buffer of `size` bytes has (R41). -/
abbrev Memory.within (size : Nat) (m : Memory) : Prop := ∀ e ∈ m, e.1 < size

/-- The byte at an address. -/
def Memory.read : Memory → Nat → Byte
  | [], _ => Memory.unlisted
  | (k, b) :: m, a => if a = k then b else Memory.read m a

/-- The entry for byte `v` at `a` put before `m`; none where `v` is what an unlisted address reads as. -/
def Memory.entry (a : Nat) (v : Byte) (m : Memory) : Memory :=
  if v = Memory.unlisted then m else (a, v) :: m

/-- Stores a byte, keeping the canonical form. -/
def Memory.write (m : Memory) (a : Nat) (v : Byte) : Memory :=
  match m with
  | [] => Memory.entry a v []
  | (k, b) :: rest =>
    if a < k then Memory.entry a v ((k, b) :: rest)
    else if a = k then Memory.entry a v rest
    else (k, b) :: Memory.write rest a v

/-! ### Updates of the state, one field each -/

def State.setFb (s : State) (m : Memory) : State := { s with fb := m }
def State.setCmdQ (s : State) (q : List Word) : State := { s with cmdQ := q }
def State.setWork (s : State) (w : Working) : State := { s with work := w }

/-- Appends a record to `RspQ` (`respond`, R12, R70). -/
def State.respond (s : State) (r : Response) : State := { s with rspQ := s.rspQ ++ [r] }

def State.setCurX (s : State) (v : BitVec 16) : State := s.setWork { s.work with curX := v }
def State.setCurY (s : State) (v : BitVec 16) : State := s.setWork { s.work with curY := v }
def State.setSi (s : State) (v : BitVec 16) : State := s.setWork { s.work with si := v }
def State.setP0 (s : State) (v : BitVec 13) : State := s.setWork { s.work with p0 := v }
def State.setOff (s : State) (v : BitVec 3) : State := s.setWork { s.work with off := v }
def State.setGi (s : State) (v : BitVec 8) : State := s.setWork { s.work with gi := v }
def State.setI (s : State) (v : BitVec 5) : State := s.setWork { s.work with i := v }
def State.setJ (s : State) (v : BitVec 8) : State := s.setWork { s.work with j := v }

/-- `P0 <- y / 8 ; OFF <- y % 8` (R112, R131). -/
def State.setRow (s : State) (y : Coord) : State :=
  (s.setP0 (BitVec.ofNat 13 (y.toNat / 8))).setOff (BitVec.ofNat 3 (y.toNat % 8))

/-! ### Accesses -/

/-- The linear address of the cell at page `p`, column `c` (R41). -/
def cellAddr (cfg : Cfg) (p c : Nat) : Nat := p * cfg.width + c

/-- `FB[p][c]` (R12, R21), for the cells the buffer has. -/
def State.cell (s : State) (p c : Nat) : Byte := s.fb.read (cellAddr s.cfg p c)

/-- Pixel `(x, y)`: bit `y % 8` of `FB[y / 8][x]` (R21, R43). -/
def State.pixel (s : State) (x y : Nat) : Bool := (s.cell (y / 8) x).getLsbD (y % 8)

/-- `MemRead(FB, a, 1)` (R12). -/
def fbRead (s : State) (a : Nat) : Except Fault Byte :=
  if a < s.cfg.fbSize then .ok (s.fb.read a) else .error (.noSuchCell a)

/-- `MemWrite(FB, a, 1, v)` (R12). -/
def fbWrite (s : State) (a : Nat) (v : Byte) : Except Fault State :=
  if a < s.cfg.fbSize then .ok (s.setFb (s.fb.write a v)) else .error (.noSuchCell a)

/-- The clipped write `Put(p, c, v)`: a write whose page or column is outside the buffer does not happen (R46). -/
def put (p c : Nat) (v : Byte) (s : State) : Except Fault State :=
  if p < s.cfg.pages ∧ c < s.cfg.width then fbWrite s (cellAddr s.cfg p c) v else .ok s

/-- A glyph: the bytes of `table` from `base` on (R93). -/
structure Glyph where
  table : List Byte
  base : Nat
  deriving DecidableEq, Repr

/-- Byte `k` of the glyph, `MemRead(ROM, base + k, 1)` (R42, R93). -/
def Glyph.read (g : Glyph) (k : Nat) : Except Fault Byte :=
  match g.table[g.base + k]? with
  | some b => .ok b
  | none => .error (.noSuchRomByte (g.base + k))

/-- The bytes at `0 .. n - 1` of an address space, followed by `acc`. -/
def readSpan (read : Nat → Except Fault Byte) : Nat → List Byte → Except Fault (List Byte)
  | 0, acc => .ok acc
  | n + 1, acc =>
    match read n with
    | .ok b => readSpan read n (b :: acc)
    | .error f => .error f

/-! ### Ending a command -/

/-- The record of a failing command (R190): status `st`, the `VAL` and cursor word that R72 gives, no payload. -/
def failureRecord (opc : BitVec 8) (st : Status) (val : BitVec 16) (cursor : Option Cursor) : Response where
  opc := opc
  status := st
  val := val
  cursor := cursor
  payload := []

/-- `raise S(info)` (R190): the command ends here; nothing is saved, no mode changes and there is no control
transfer: the whole of taking a failure is its response record. There is no return from one (R197). -/
def raise (opc : BitVec 8) (st : Status) (val : BitVec 16) (cursor : Option Cursor) (s : State) : State :=
  s.respond (failureRecord opc st val cursor)

/-- The outcome of a command whose pseudocode ran to its end, or made an access to an address that does not exist. -/
def finish (r : Except Fault State) : Host.Outcome State Fault Refusal :=
  match r with
  | .ok s => .next s
  | .error f => .fault f

/-- An illegal header: that one word is consumed, nothing else changes, and the response is
`respond(ILLEGAL_COMMAND, 0, none)` with the header's bits 31:24 echoed (R69, R194). -/
def illegalCommand (h : Word) (s : State) : State :=
  raise (headerOpc h) .illegalCommand 0 none (s.setCmdQ s.cmdQ.tail)

/-- What the block does when no command can run: nothing, while `CmdQ` is empty or holds part of a command (R61,
R220); the answer to an illegal header (R69). -/
def withoutCommand (r : Reject) (s : State) : State :=
  match r with
  | .emptyQueue => s
  | .incompleteCommand => s
  | .illegalHeader h => illegalCommand h s

/-- The block is enabled: a whole command, or an illegal header, is at the head of `CmdQ` (R61, R69). -/
def State.enabled (s : State) : Bool :=
  match decode s.cmdQ with
  | .ok _ => true
  | .error (.illegalHeader _) => true
  | .error .emptyQueue => false
  | .error .incompleteCommand => false

end Sys2Proof.Machine
end

