-- ==== Sys2Proof/Machine/Operands.lean ====
section
/-! DEFINITION. How the two operands that need the configuration are resolved: the font selector (`40_font_catalog.md`
R91) and the character code (R92, R93). The other operands are fields of the command's words (`Decode.lean`, R68). -/

namespace Sys2Proof.Machine

/-- The descriptor filed under `fsel` in a list of fonts. -/
def findFont (fsel : FontSel) : List (FontSel × Font) → Option Font
  | [] => none
  | (k, F) :: fonts => if k = fsel then some F else findFont fsel fonts

/-- `ResolveFont(fsel)`; `none` is `raise UNCONFIGURED_FONT` (R91). -/
def resolveFont (cfg : Cfg) (fsel : FontSel) : Option Font := findFont fsel cfg.data.fonts

/-- The two glyph tables of a font (R42). -/
inductive Table
  | ascii
  | extra
  deriving DecidableEq, Repr

/-- The bytes of a table. -/
def tableBytes (F : Font) : Table → List Byte
  | .ascii => F.ascii
  | .extra => F.extra

/-- The linear scan of `extra_codes`: the position of `ch`, counted from `k` (R92). -/
def scanCodes (ch : CharCode) : List CharCode → Nat → Option Nat
  | [], _ => none
  | c :: codes, k => if c = ch then some k else scanCodes ch codes (k + 1)

/-- The table and glyph index of a character; `none` is `raise NOT_REPRESENTABLE` (R92). -/
def glyphIndex (F : Font) (ch : CharCode) : Option (Table × Nat) :=
  if ch.toNat < spaceCode then none
  else if ch.toNat ≤ lastPrintable then some (.ascii, ch.toNat - spaceCode)
  else (scanCodes ch F.extraCodes 0).map fun k => (.extra, k)

/-- `return Glyph(table, base = GI * F.gsize)` (R92, R93). -/
def glyphAtIndex (F : Font) (t : Table) (s : State) : Glyph := ⟨tableBytes F t, s.work.gi.toNat * F.gsize⟩

/-- `Lookup(F, ch)`: writes `GI` and gives the glyph it indexes (R92, R93). -/
def lookup (F : Font) (ch : CharCode) (s : State) : Option (Glyph × State) :=
  match glyphIndex F ch with
  | none => none
  | some (t, k) => some (glyphAtIndex F t (s.setGi (BitVec.ofNat 8 k)), s.setGi (BitVec.ofNat 8 k))

/-- `F <- ResolveFont(font)`, the first thing every command that takes a font does; on failure the record carries
`VAL = 0` and, for `DRAW_STRING`, the cursor word (R72, R91). -/
def withFont (op : Op) (font : FontSel) (cursor : Option Cursor) (s : State)
    (body : Font → Host.Outcome State Fault Refusal) : Host.Outcome State Fault Refusal :=
  match resolveFont s.cfg font with
  | none => .next (raise op.code .unconfiguredFont 0 cursor s)
  | some F => body F

/-- `F <- ResolveFont(font) ; g <- Lookup(F, ch)`, which `GLYPH_FOR`, `GLYPH_WIDTH` and `DRAW_GLYPH` begin with; on
failure the record carries `VAL = 0` and no further words (R72, R99, R100). -/
def withGlyph (op : Op) (font : FontSel) (ch : CharCode) (s : State)
    (body : Font → Glyph → State → Host.Outcome State Fault Refusal) : Host.Outcome State Fault Refusal :=
  withFont op font none s fun F =>
    match lookup F ch s with
    | none => .next (raise op.code .notRepresentable 0 none s)
    | some (g, s') => body F g s'

end Sys2Proof.Machine
end

