-- ==== Sys2Proof/Machine/Catalog.lean ====
section
/-! DEFINITION. The font catalog's three queries: `GLYPH_FOR`, `GLYPH_WIDTH`, `FONT_HEIGHT`
(`40_font_catalog.md` R96 to R98). -/

namespace Sys2Proof.Machine

/-- `(F.rows << 8) | F.cols` (R96). -/
def shapeVal (F : Font) : BitVec 16 := BitVec.ofNat 16 F.rows <<< 8 ||| BitVec.ofNat 16 F.cols

/-- `GLYPH_FOR` (R96). -/
def execGlyphFor (font : FontSel) (ch : CharCode) (s : State) : Host.Outcome State Fault Refusal :=
  withGlyph .glyphFor font ch s fun F g s =>
    match readSpan g.read F.gsize [] with
    | .error f => .fault f
    | .ok bytes =>
      .next (s.respond { opc := Op.glyphFor.code, status := .ok, val := shapeVal F, cursor := none, payload := bytes })

/-- `GLYPH_WIDTH` (R97). -/
def execGlyphWidth (font : FontSel) (ch : CharCode) (s : State) : Host.Outcome State Fault Refusal :=
  withGlyph .glyphWidth font ch s fun F _ s =>
    .next (s.respond
      { opc := Op.glyphWidth.code, status := .ok, val := BitVec.ofNat 16 F.width, cursor := none, payload := [] })

/-- `FONT_HEIGHT` (R98). -/
def execFontHeight (font : FontSel) (s : State) : Host.Outcome State Fault Refusal :=
  withFont .fontHeight font none s fun F =>
    .next (s.respond
      { opc := Op.fontHeight.code, status := .ok, val := BitVec.ofNat 16 F.height, cursor := none, payload := [] })

end Sys2Proof.Machine
end

