-- ==== Sys2Proof/Machine/Compositor.lean ====
section
/-! DEFINITION. The compositor: the blit with its split across two pages, `DRAW_GLYPH` and `DRAW_STRING`
(`42_compositor.md` R130 to R148). -/

namespace Sys2Proof.Machine

/-- The low half of a glyph byte, `(b << OFF) & 0xFF` (R134). -/
def lowHalf (off : Nat) (b : Byte) : Byte := b <<< off

/-- The high half of a glyph byte, `b >> (8 - OFF)` (R134). -/
def highHalf (off : Nat) (b : Byte) : Byte := b >>> (8 - off)

/-- One glyph byte: its whole byte where `OFF = 0`, else its low half and then its high half, each through `Put`
(R131, R133, R134). -/
def putGlyphByte (b : Byte) (x : Nat) (s : State) : Except Fault State :=
  let page := s.work.p0.toNat + s.work.i.toNat
  let column := x + s.work.j.toNat
  let off := s.work.off.toNat
  if off = 0 then put page column b s
  else (put page column (lowHalf off b) s).bind (put (page + 1) column (highHalf off b))

/-- The body of the two loops: `b <- G(I, J)` and its writes (R93, R131). -/
def blitCell (F : Font) (g : Glyph) (x : Nat) (s : State) : Except Fault State :=
  (g.read (s.work.i.toNat * F.cols + s.work.j.toNat)).bind fun b => putGlyphByte b x s

/-- Columns `0 .. n - 1` of glyph row `I`, ascending (R131). -/
def blitColumns (F : Font) (g : Glyph) (x : Nat) : Nat → State → Except Fault State
  | 0, s => .ok s
  | n + 1, s => (blitColumns F g x n s).bind fun s => blitCell F g x (s.setJ (BitVec.ofNat 8 n))

/-- Rows `0 .. n - 1` of the glyph, ascending (R131). -/
def blitRows (F : Font) (g : Glyph) (x : Nat) : Nat → State → Except Fault State
  | 0, s => .ok s
  | n + 1, s => (blitRows F g x n s).bind fun s => blitColumns F g x F.cols (s.setI (BitVec.ofNat 5 n))

/-- `Blit(F, g, x, y)` (R131). -/
def blit (F : Font) (g : Glyph) (x y : Coord) (s : State) : Except Fault State :=
  blitRows F g x.toNat F.rows (s.setRow y)

/-- `(F.height << 8) | F.width`: advance height and advance width (R72, R132). -/
def advanceVal (F : Font) : BitVec 16 := BitVec.ofNat 16 F.height <<< 8 ||| BitVec.ofNat 16 F.width

/-- `DRAW_GLYPH` (R132). -/
def execDrawGlyph (x y : Coord) (font : FontSel) (ch : CharCode) (s : State) : Host.Outcome State Fault Refusal :=
  withGlyph .drawGlyph font ch s fun F g s =>
    finish ((blit F g x y s).map fun s => s.respond
      { opc := Op.drawGlyph.code, status := .ok, val := advanceVal F, cursor := none, payload := [] })

/-- `sat16(v)` (R12). -/
def sat16 (v : Nat) : BitVec 16 := BitVec.ofNat 16 (min v 0xFFFF)

/-- The drawing cursor as it stands in the working registers. -/
def State.cursor (s : State) : Cursor := ⟨s.work.curX, s.work.curY⟩

/-- `CURX <- sat16(CURX + F.width)` (R140). -/
def advanceColumn (F : Font) (s : State) : State := s.setCurX (sat16 (s.work.curX.toNat + F.width))

/-- `if CURX >= WIDTH then CURX <- 0 ; CURY <- sat16(CURY + F.height)` (R140, R141). -/
def wrapCursor (F : Font) (s : State) : State :=
  if s.cfg.width ≤ s.work.curX.toNat then (s.setCurX 0).setCurY (sat16 (s.work.curY.toNat + F.height)) else s

/-- `SI <- SI + 1` (R140). -/
def countChar (s : State) : State := s.setSi (s.work.si + 1)

/-- After a character: advance, then the wrap test, then the count (R140, R141, R146). -/
def advance (F : Font) (s : State) : State := countChar (wrapCursor F (advanceColumn F s))

/-- The loop of `DRAW_STRING` over the characters still to come: the status it ends with and the state it leaves
(R140, R143). -/
def drawChars (F : Font) : List CharCode → State → Except Fault (Status × State)
  | [], s => .ok (.ok, s)
  | ch :: text, s =>
    match lookup F ch s with
    | none => .ok (.notRepresentable, s)
    | some (g, s) =>
      match blit F g s.work.curX s.work.curY s with
      | .error f => .error f
      | .ok s => drawChars F text (advance F s)

/-- `CURX <- x ; CURY <- y ; SI <- 0` (R140). -/
def startString (x y : Coord) (s : State) : State := ((s.setCurX x).setCurY y).setSi 0

/-- The end of `DRAW_STRING`: `VAL` is `N` when every character was drawn and `SI` at a failure; the cursor word is
always there (R72, R140). -/
def endString (n : BitVec 16) (st : Status) (s : State) : State :=
  match st with
  | .ok => s.respond
      { opc := Op.drawString.code, status := .ok, val := n, cursor := some s.cursor, payload := [] }
  | st => raise Op.drawString.code st s.work.si (some s.cursor) s

/-- `DRAW_STRING` from the cursor in `CURX`, `CURY` on: resolve the font, loop, respond (R140). -/
def drawText (font : FontSel) (text : List CharCode) (s : State) : Host.Outcome State Fault Refusal :=
  withFont .drawString font (some s.cursor) s fun F =>
    finish ((drawChars F text s).map fun r => endString (BitVec.ofNat 16 text.length) r.1 r.2)

/-- `DRAW_STRING` (R140). -/
def execDrawString (x y : Coord) (font : FontSel) (text : List CharCode) (s : State) :
    Host.Outcome State Fault Refusal :=
  drawText font text (startString x y s)

end Sys2Proof.Machine
end

