-- ==== Sys2Proof/Machine/FrameBuffer.lean ====
section
/-! DEFINITION. The frame-buffer commands: `CLEAR`, `SET_PIXEL`, `SNAPSHOT` (`41_framebuffer_ops.md` R110 to R118). -/

namespace Sys2Proof.Machine

/-- `CLEAR` (R110): every byte of `FB` becomes 0x00, which in the canonical form is the memory that lists nothing. -/
def execClear (s : State) : Host.Outcome State Fault Refusal :=
  .next ((s.setFb []).respond
    { opc := Op.clear.code, status := .ok, val := 0, cursor := none, payload := [] })

/-- `old | (1 << OFF)` or `old & (0xFF ^ (1 << OFF))` (R112, R113). -/
def pixelByte (old : Byte) (off : Nat) (on : Bool) : Byte :=
  if on then old ||| (1#8 <<< off) else old &&& (0xFF#8 ^^^ (1#8 <<< off))

/-- A read-modify-write of one byte (R48). -/
def modifyByte (a : Nat) (f : Byte → Byte) (s : State) : Except Fault State :=
  (fbRead s a).bind fun old => fbWrite s a (f old)

/-- The read-modify-write of `SET_PIXEL` at column `x` of the page and bit in `P0` and `OFF` (R112). -/
def writePixelAt (x : Nat) (on : Bool) (s : State) : Except Fault State :=
  modifyByte (cellAddr s.cfg s.work.p0.toNat x) (fun old => pixelByte old s.work.off.toNat on) s

/-- What `SET_PIXEL` does to a pixel inside the display (R112). -/
def writePixel (x y : Coord) (on : Bool) (s : State) : Except Fault State := writePixelAt x.toNat on (s.setRow y)

/-- The record of `SET_PIXEL`, the same in and outside the display (R72, R112). -/
def pixelDone : Response := { opc := Op.setPixel.code, status := .ok, val := 0, cursor := none, payload := [] }

/-- `SET_PIXEL` (R112). -/
def execSetPixel (x y : Coord) (on : Bool) (s : State) : Host.Outcome State Fault Refusal :=
  if s.cfg.width ≤ x.toNat ∨ s.cfg.height ≤ y.toNat then .next (s.respond pixelDone)
  else finish ((writePixel x y on s).map fun s => s.respond pixelDone)

/-- Every byte of the frame buffer in the order of its linear address, `MemRead(FB, k, 1)` for each (R117, R118). -/
def allBytes (s : State) : List Byte := (List.range s.cfg.fbSize).map s.fb.read

/-- `SNAPSHOT` (R117). -/
def execSnapshot (s : State) : Host.Outcome State Fault Refusal :=
  .next (s.respond
    { opc := Op.snapshot.code, status := .ok, val := 0, cursor := none, payload := allBytes s })

end Sys2Proof.Machine
end

