-- ==== Sys2Proof/Machine/Dispatch.lean ====
section
/-! DEFINITION. One arm per command (`30_encoding.md` R67): the pseudocode of each runs atomically (`00_scope.md` R13)
on a state whose `CmdQ` has already given up the command's words (R61). -/

namespace Sys2Proof.Machine

def exec (i : Instr) (s : State) : Host.Outcome State Fault Refusal :=
  match i with
  | .glyphFor font ch => Sys2Proof.Machine.execGlyphFor font ch s
  | .glyphWidth font ch => Sys2Proof.Machine.execGlyphWidth font ch s
  | .fontHeight font => Sys2Proof.Machine.execFontHeight font s
  | .clear => Sys2Proof.Machine.execClear s
  | .setPixel x y on => Sys2Proof.Machine.execSetPixel x y on s
  | .drawGlyph x y font ch => Sys2Proof.Machine.execDrawGlyph x y font ch s
  | .drawString x y font text => Sys2Proof.Machine.execDrawString x y font text s
  | .snapshot => Sys2Proof.Machine.execSnapshot s

end Sys2Proof.Machine
end

