-- ==== Sys2Proof/Machine/Step.lean ====
section
/-! DEFINITION. One step of the block (`30_encoding.md` R61): take the command at the head of `CmdQ`, remove its words
and run it; or answer an illegal header; or, with no whole command there, do nothing. -/

namespace Sys2Proof.Machine

/-- One step of the block (R50, R61, R69). -/
def step (s : State) : Host.Outcome State Fault Refusal :=
  match decode s.cmdQ with
  | .ok (i, rest) => exec i (s.setCmdQ rest)
  | .error r => .next (withoutCommand r s)

/-- `s` with the words of `tableWords nbits w` before those already in `CmdQ`, where the next step takes its command
(log 2). -/
def State.withFetchWord (s : State) (nbits w : Nat) : State := s.setCmdQ (tableWords nbits w ++ s.cmdQ)

end Sys2Proof.Machine
end

