-- ==== Sys2Proof/Machine/Assembler.lean ====
section
/-! DEFINITION. The assembler's lines (`30_encoding.md` R73, R74): one command per line, operands separated by commas,
a semicolon to the end of the line a comment. It is presentation (D28): no step of the machine reads it. -/

namespace Sys2Proof.Machine

/-- The tokens of a line. -/
inductive Token
  | word (cs : List Char)
  | comma
  /-- A character in single quotes. -/
  | quoted (c : Char)
  /-- A text in double quotes, its escapes already replaced. -/
  | text (cs : List CharCode)
  deriving DecidableEq, Repr

/-- Where in a token the scanner stands; collected characters are kept last first. -/
inductive LexMode
  | between
  | inWord (cs : List Char)
  | afterQuote
  | closeQuote (c : Char)
  | inText (cs : List CharCode)
  | escape (cs : List CharCode)
  | hexOpen (cs : List CharCode)
  | inHex (cs : List CharCode) (digits : List Char)
  deriving DecidableEq, Repr

/-- The value of a digit in base 10 or 16. -/
def digitValue (base : Nat) (c : Char) : Option Nat :=
  let n := c.toNat
  let v :=
    if '0'.toNat ≤ n ∧ n ≤ '9'.toNat then some (n - '0'.toNat)
    else if 'a'.toNat ≤ n ∧ n ≤ 'f'.toNat then some (n - 'a'.toNat + 10)
    else if 'A'.toNat ≤ n ∧ n ≤ 'F'.toNat then some (n - 'A'.toNat + 10)
    else none
  v.filter (· < base)

/-- The value of digits, most significant first, after those already worth `acc`. -/
def digitsValue (base : Nat) : List Char → Nat → Option Nat
  | [], acc => some acc
  | c :: cs, acc => (digitValue base c).bind fun d => digitsValue base cs (acc * base + d)

/-- The value of one or more digits. -/
def digitString (base : Nat) (cs : List Char) : Option Nat :=
  match cs with
  | [] => none
  | c :: cs => digitsValue base (c :: cs) 0

/-- A number below `bound`, as a field of `w` bits. -/
def fieldOf (w : Nat) (v : Option Nat) : Option (BitVec w) :=
  v.bind fun n => if n < 2 ^ w then some (BitVec.ofNat w n) else none

/-- The code of a character. -/
def charCode (c : Char) : CharCode := BitVec.ofNat 32 c.toNat

def wordToken (cs : List Char) : Token := .word cs.reverse
def textToken (cs : List CharCode) : Token := .text cs.reverse

/-- Splits a line into tokens; `none` where a quote or an escape is malformed. The escapes of a text are `\n`, `\r`,
`\\`, `\"` and `\u` with hexadecimal digits in braces (R73). -/
def lex : List Char → LexMode → Option (List Token)
  | [], .between => some []
  | [], .inWord cs => some [wordToken cs]
  | [], _ => none
  | c :: rest, .between =>
    if c = ';' then some []
    else if c = ' ' ∨ c = '\t' then lex rest .between
    else if c = ',' then (lex rest .between).map (.comma :: ·)
    else if c = '\'' then lex rest .afterQuote
    else if c = '"' then lex rest (.inText [])
    else lex rest (.inWord [c])
  | c :: rest, .inWord cs =>
    if c = ';' then some [wordToken cs]
    else if c = ' ' ∨ c = '\t' then (lex rest .between).map (wordToken cs :: ·)
    else if c = ',' then (lex rest .between).map fun ts => wordToken cs :: .comma :: ts
    else lex rest (.inWord (c :: cs))
  | c :: rest, .afterQuote => lex rest (.closeQuote c)
  | c :: rest, .closeQuote q => if c = '\'' then (lex rest .between).map (.quoted q :: ·) else none
  | c :: rest, .inText cs =>
    if c = '"' then (lex rest .between).map (textToken cs :: ·)
    else if c = '\\' then lex rest (.escape cs)
    else lex rest (.inText (charCode c :: cs))
  | c :: rest, .escape cs =>
    if c = 'n' then lex rest (.inText (0x0A :: cs))
    else if c = 'r' then lex rest (.inText (0x0D :: cs))
    else if c = '\\' ∨ c = '"' then lex rest (.inText (charCode c :: cs))
    else if c = 'u' then lex rest (.hexOpen cs)
    else none
  | c :: rest, .hexOpen cs => if c = '\x7b' then lex rest (.inHex cs []) else none
  | c :: rest, .inHex cs ds =>
    if c = '\x7d' then
      match fieldOf 32 (digitString 16 ds.reverse) with
      | some v => lex rest (.inText (v :: cs))
      | none => none
    else lex rest (.inHex cs (c :: ds))

/-- A decimal or `0x` number (R73). -/
def number (cs : List Char) : Option Nat :=
  match cs with
  | '0' :: 'x' :: ds => digitString 16 ds
  | ds => digitString 10 ds

/-- `<x>` or `<y>`: a number 0 to 65535 (R73). -/
def coordOperand (t : Token) : Option Coord :=
  match t with
  | .word cs => fieldOf 16 (number cs)
  | _ => none

/-- `f<height>` (R73). -/
def fontOperand (t : Token) : Option FontSel :=
  match t with
  | .word ('f' :: ds) => fieldOf 8 (digitString 10 ds)
  | _ => none

/-- `<ch>`: a character in single quotes, a code point `U+0041`, or a number (R73). -/
def charOperand (t : Token) : Option CharCode :=
  match t with
  | .quoted c => some (charCode c)
  | .word ('U' :: '+' :: ds) => fieldOf 32 (digitString 16 ds)
  | .word cs => fieldOf 32 (number cs)
  | _ => none

/-- `on` is `ARG = 1`, `off` is `ARG = 0` (R73). -/
def onOffOperand (t : Token) : Option Bool :=
  if t = .word "on".toList then some true
  else if t = .word "off".toList then some false
  else none

/-- A text no longer than one command carries (R68, R73). -/
def textOperand (t : Token) : Option (List CharCode) :=
  match t with
  | .text cs => if cs.length ≤ maxText then some cs else none
  | _ => none

/-- The operand tokens of a line, with exactly one comma between two of them. -/
def commaSeparated : List Token → Option (List Token)
  | [] => some []
  | [.comma] => none
  | [t] => some [t]
  | .comma :: _ :: _ => none
  | t :: .comma :: t' :: rest => (commaSeparated (t' :: rest)).map (t :: ·)
  | _ :: _ :: _ => none

/-- The row a mnemonic names; case carries no meaning, and `new_frame` is `clear` (R73, R74). -/
def mnemonicOp (cs : List Char) : Option Op :=
  let m := cs.map Char.toLower
  if m = "glyph_for".toList then some .glyphFor
  else if m = "glyph_width".toList then some .glyphWidth
  else if m = "font_height".toList then some .fontHeight
  else if m = "clear".toList then some .clear
  else if m = "new_frame".toList then some .clear
  else if m = "set_pixel".toList then some .setPixel
  else if m = "draw_glyph".toList then some .drawGlyph
  else if m = "draw_string".toList then some .drawString
  else if m = "snapshot".toList then some .snapshot
  else none

/-- The command of a mnemonic and its operands, in the order R73 lists them. -/
def command (op : Op) (operands : List Token) : Option Instr :=
  match op, operands with
  | .glyphFor, [f, c] => (fontOperand f).bind fun f => (charOperand c).map fun c => .glyphFor f c
  | .glyphWidth, [f, c] => (fontOperand f).bind fun f => (charOperand c).map fun c => .glyphWidth f c
  | .fontHeight, [f] => (fontOperand f).map .fontHeight
  | .clear, [] => some .clear
  | .setPixel, [x, y, b] =>
    (coordOperand x).bind fun x => (coordOperand y).bind fun y => (onOffOperand b).map fun b => .setPixel x y b
  | .drawGlyph, [x, y, f, c] =>
    (coordOperand x).bind fun x => (coordOperand y).bind fun y =>
      (fontOperand f).bind fun f => (charOperand c).map fun c => .drawGlyph x y f c
  | .drawString, [x, y, f, t] =>
    (coordOperand x).bind fun x => (coordOperand y).bind fun y =>
      (fontOperand f).bind fun f => (textOperand t).map fun t => .drawString x y f t
  | .snapshot, [] => some .snapshot
  | _, _ => none

/-- The commands of one line: none for a blank line or a comment, else one; `none` where the line is malformed. -/
def assembleLine (line : List Char) : Option (List Instr) :=
  match lex line .between with
  | some [] => some []
  | some (.word m :: operands) =>
    (mnemonicOp m).bind fun op => (commaSeparated operands).bind fun ts => (command op ts).map fun i => [i]
  | _ => none

/-- The command words of a program, line by line (R60, R73). -/
def assemble : List (List Char) → Option (List Word)
  | [] => some []
  | line :: rest =>
    (assembleLine line).bind fun is => (assemble rest).map fun ws => is.flatMap encode ++ ws

end Sys2Proof.Machine
end

