-- ==== Sys2Proof/Machine/LineBuffer.lean ====
section
/-! DEFINITION. The LineBuffer companion (`48_linebuffer_companion.md` R160 to R169). It runs on the host, outside the
block (`00_scope.md` R5): its state is a value of its own and no part of the block's `State` (R31). -/

namespace Sys2Proof.Machine

/-- A LineBuffer (R160). A character is one code, the unit of a `CH` word. -/
structure LineBuffer where
  /-- `lines`, most recent first. -/
  lines : List (List CharCode)
  /-- `len_max`, the maximum line count, fixed at creation. -/
  lenMax : Nat
  /-- `index`, the next write column in the head line. -/
  index : Nat
  deriving DecidableEq, Repr

/-- `\n` (R162). -/
def lineFeed : CharCode := 0x0A

/-- `\r` (R162). -/
def carriageReturn : CharCode := 0x0D

/-- The padding space U+0020 (R162). -/
def padSpace : CharCode := 0x20

/-- `new(max_lines)`; `new(0)` is refused (R161). -/
def LineBuffer.new (maxLines : Nat) : Option LineBuffer :=
  if maxLines = 0 then none else some { lines := [], lenMax := maxLines, index := 0 }

/-- The line ensured before a character's own rule (R163). -/
def ensureLine (lines : List (List CharCode)) : List (List CharCode) :=
  match lines with
  | [] => [[]]
  | l :: ls => l :: ls

/-- A line feed: a new empty head line; the tail line is evicted where there are now more than `len_max` (R164). -/
def LineBuffer.feed (lb : LineBuffer) : LineBuffer :=
  let lines := [] :: ensureLine lb.lines
  { lb with lines := if lb.lenMax < lines.length then lines.dropLast else lines, index := 0 }

/-- The head line padded with spaces up to the cursor (R162, R166). -/
def padLine (line : List CharCode) (index : Nat) : List CharCode :=
  line ++ List.replicate (index - line.length) padSpace

/-- Replaces the character at the cursor where there is one, and appends where the cursor is at the end (R166). -/
def writeAt (line : List CharCode) (index : Nat) (ch : CharCode) : List CharCode :=
  if index < line.length then line.set index ch else line ++ [ch]

/-- Any other character: written into the head line, and the cursor advanced by one (R166). -/
def LineBuffer.write (lb : LineBuffer) (ch : CharCode) : LineBuffer :=
  match ensureLine lb.lines with
  | [] => lb
  | line :: older =>
    { lb with lines := writeAt (padLine line lb.index) lb.index ch :: older, index := lb.index + 1 }

/-- `PushChar(ch)` (R162). -/
def LineBuffer.pushChar (lb : LineBuffer) (ch : CharCode) : LineBuffer :=
  if ch = lineFeed then lb.feed
  else if ch = carriageReturn then { lb with lines := ensureLine lb.lines, index := 0 }
  else lb.write ch

/-- `push(text)`, one character at a time (R162). -/
def LineBuffer.push (lb : LineBuffer) : List CharCode → LineBuffer
  | [] => lb
  | ch :: text => (lb.pushChar ch).push text

/-- `get(i)`, 0 the most recent line (R167). -/
def LineBuffer.get (lb : LineBuffer) (i : Nat) : Option (List CharCode) := lb.lines[i]?

/-- `clear()`: `len_max` is kept (R168). -/
def LineBuffer.clear (lb : LineBuffer) : LineBuffer := { lb with lines := [], index := 0 }

/-- `line_count()` (R169). -/
def LineBuffer.lineCount (lb : LineBuffer) : Nat := lb.lines.length

/-- The two states of the state machine view (R171). -/
inductive LinePhase
  | noLines
  | hasLines
  deriving DecidableEq, Repr

/-- The state a LineBuffer is in (R171). -/
def LineBuffer.phase (lb : LineBuffer) : LinePhase :=
  match lb.lines with
  | [] => .noLines
  | _ :: _ => .hasLines

end Sys2Proof.Machine
end

