-- ==== Sys2Proof/Machine/HostPort.lean ====
section
/-! DEFINITION. What the host does at the port, between two steps of the block (`60_exceptions.md` R202 to R204): it
appends words to `CmdQ`, takes records from `RspQ`, and cuts a snapshot into the pages it transmits. -/

namespace Sys2Proof.Machine

/-- The host appends words to `CmdQ` (R60, R202). -/
def hostSend (words : List Word) (s : State) : State := s.setCmdQ (s.cmdQ ++ words)

/-- The host sends a command: its whole words (R202). -/
def hostCommand (i : Instr) (s : State) : State := hostSend (encode i) s

/-- The host takes the oldest response record, where there is one (R202). -/
def hostTake (s : State) : Option (Response × State) :=
  match s.rspQ with
  | [] => none
  | r :: rest => some (r, { s with rspQ := rest })

/-- The bytes of page `p` of a snapshot's payload, which the host streams to the transport after its page and column
commands (R204). -/
def pageBytes (cfg : Cfg) (payload : List Byte) (p : Nat) : List Byte :=
  (payload.drop (p * cfg.width)).take cfg.width

/-- One call of the transport, `transmit(is_command, byte)` (R204). -/
structure Transmit where
  isCommand : Bool
  byte : Byte
  deriving DecidableEq, Repr

/-- The flush, the host's duty and no command of the block (R74, R204): for each page the host's own page-select and
column-select bytes, which the source does not give, then that page's data bytes. -/
def flush (cfg : Cfg) (selectBytes : Nat → List Byte) (payload : List Byte) : List Transmit :=
  (List.range cfg.pages).flatMap fun p =>
    (selectBytes p).map (fun b => ⟨true, b⟩) ++ (pageBytes cfg payload p).map (fun b => ⟨false, b⟩)

/-- The commands of one display update of a LineBuffer: clear, each line at the row the host chooses, snapshot (R173,
R212). DESIGN CHOICE (log 22): the lines are drawn from index 0, the most recent, upward; R173 and R212 leave the
order of the drawing commands to the host. -/
def frameCommands (lb : LineBuffer) (font : FontSel) (origin : Nat → Coord × Coord) : List Instr :=
  Instr.clear ::
    (lb.lines.zipIdx.map fun l => Instr.drawString (origin l.2).1 (origin l.2).2 font l.1) ++ [Instr.snapshot]

/-- The words of several commands, one after the other (R60). -/
def encodeAll (is : List Instr) : List Word := is.flatMap encode

end Sys2Proof.Machine
end

