-- ==== Sys2Proof/Safety.lean ====
section
/-! DEFINITION. The terms claims are made in: the invariant of the state (`10_state.md` R29), the form of a response
record (`30_encoding.md` R72), what a glyph and a string leave on the display (`42_compositor.md` R133 to R146), and
the invariant of the LineBuffer (`48_linebuffer_companion.md` R170). -/

namespace Sys2Proof.Machine

/-- The form R70 and R72 give a record: which commands have a cursor word, which have a payload and how long it is,
and that `VAL` is 0 on failure but for `DRAW_STRING`. -/
def Response.wf (cfg : Cfg) (r : Response) : Prop :=
  (r.cursor.isSome = true ↔ r.opc = 0x13#8)
    ∧ (r.status ≠ .ok → r.payload = [] ∧ (r.opc ≠ 0x13#8 → r.val = 0))
    ∧ (r.status = .ok → r.opc ∈ [0x01#8, 0x02#8, 0x03#8, 0x10#8, 0x11#8, 0x12#8, 0x13#8, 0x14#8])
    ∧ (r.status = .ok → r.opc = 0x14#8 → r.payload.length = cfg.fbSize)
    ∧ (r.status = .ok → r.opc = 0x01#8 →
        ∃ font F, resolveFont cfg font = some F ∧ r.val = shapeVal F ∧ r.payload.length = F.gsize)
    ∧ (r.opc ≠ 0x01#8 → r.opc ≠ 0x14#8 → r.payload = [])

/-- The invariant of the state (R29): the frame buffer lists only bytes it has, in the canonical form, and every
record has the form of R72. -/
def State.Inv (s : State) : Prop :=
  s.fb.wf ∧ s.fb.within s.cfg.fbSize ∧ ∀ r ∈ s.rspQ, r.wf s.cfg

/-- `G(i, j)`: the byte at local row `i`, column `j` of glyph `k` of a table (R42, R93). -/
def glyphCell (F : Font) (t : Table) (k i j : Nat) : Byte :=
  (tableBytes F t).getD (k * F.gsize + (i * F.cols + j)) 0

/-- What a blit of a glyph with cells `G` at pixel `(x, y)` leaves in the cell at page `p`, column `c`: `none` outside
its footprint (R133, R136, R137). -/
def stamp (rows cols : Nat) (G : Nat → Nat → Byte) (x y p c : Nat) : Option Byte :=
  if x ≤ c ∧ c < x + cols ∧ y / 8 ≤ p then
    if p - y / 8 < rows then some (lowHalf (y % 8) (G (p - y / 8) (c - x)))
    else if p - y / 8 = rows ∧ y % 8 ≠ 0 ∧ 0 < rows then some (highHalf (y % 8) (G (rows - 1) (c - x)))
    else none
  else none

/-- The bytes of a frame buffer by page and column, without bounds. -/
abbrev Picture := Nat → Nat → Byte

/-- A picture after a blit. -/
def Picture.blit (pic : Picture) (rows cols : Nat) (G : Nat → Nat → Byte) (x y : Nat) : Picture :=
  fun p c => (stamp rows cols G x y p c).getD (pic p c)

/-- What a string leaves: the status, how many characters were rendered, the cursor, the picture. -/
structure Drawn where
  status : Status
  count : Nat
  x : Nat
  y : Nat
  picture : Picture

/-- The loop of `DRAW_STRING` on unbounded natural numbers and an unbounded picture, wrapping at column `width`
(R140, R146). -/
def drawUnbounded (F : Font) (width : Nat) : List CharCode → Nat → Nat → Picture → Drawn
  | [], x, y, pic => ⟨.ok, 0, x, y, pic⟩
  | ch :: text, x, y, pic =>
    match glyphIndex F ch with
    | none => ⟨.notRepresentable, 0, x, y, pic⟩
    | some (t, k) =>
      let pic := pic.blit F.rows F.cols (glyphCell F t k) x y
      let d :=
        if width ≤ x + F.width then drawUnbounded F width text 0 (y + F.height) pic
        else drawUnbounded F width text (x + F.width) y pic
      { d with count := d.count + 1 }

/-- The record a command leaves last in `RspQ`. -/
def State.lastStatus (s : State) : Option Status := s.rspQ.getLast?.map Response.status

/-- The invariant of a LineBuffer reached from `new` (R170). -/
def LineBuffer.Inv (lb : LineBuffer) : Prop :=
  1 ≤ lb.lenMax ∧ lb.lines.length ≤ lb.lenMax
    ∧ (∀ line ∈ lb.lines.head?, lb.index ≤ line.length) ∧ (lb.lines = [] → lb.index = 0)
    ∧ ∀ line ∈ lb.lines, lineFeed ∉ line ∧ carriageReturn ∉ line

end Sys2Proof.Machine
end

