-- ==== Sys2Proof/Certificates/Slice0/Obligations.lean ====
section
/-! DEFINITION. What is claimed of the model, for the provers. Numbers of the port (opcodes, status records) are
written out, so that a claim can be held beside the rule it formalises. -/

open Sys2Proof Sys2Proof.Machine

/-! ### Encoding and decoding (`30_encoding.md`) -/

/-- Every well-formed command is decoded from its own words, whatever follows them (R62 to R68): no operand bit is
lost. -/
def Obligations.DecodeEncodeRoundTrip : Prop :=
  ∀ (i : Instr) (rest : List Word), i.wf = true → decode (encode i ++ rest) = .ok (i, rest)

/-- Words that decode to a command are that command's own words: the decoder ignores no bit (R62 to R69). -/
def Obligations.DecodedWordsAreTheEncoding : Prop :=
  ∀ (q rest : List Word) (i : Instr), decode q = .ok (i, rest) → i.wf = true ∧ q = encode i ++ rest

/-- No header selects two rows of the opcode map (R67). -/
def Obligations.OpcodeRowsAreDisjoint : Prop :=
  ∀ (h : Word) (r r' : OpcodeRow), r ∈ opcodeTable → r' ∈ opcodeTable → r.selects h = true → r'.selects h = true →
    r = r'

/-- The length of every format, that the header alone determines it, and that a command is incomplete exactly while
the queue holds fewer words than its header asks for (R65, R66). -/
def Obligations.HeaderDeterminesLength : Prop :=
  (∀ i : Instr, i.wf = true → ∃ h operands, encode i = h :: operands ∧ commandLength h = operands.length + 1
      ∧ commandLength h = match i with
        | .fontHeight _ => 1
        | .clear => 1
        | .snapshot => 1
        | .glyphFor _ _ => 2
        | .glyphWidth _ _ => 2
        | .setPixel _ _ _ => 2
        | .drawGlyph _ _ _ _ => 3
        | .drawString _ _ _ text => 2 + text.length)
    ∧ (∀ h : Word, selectRow h = none → commandLength h = 1)
    ∧ ∀ (h : Word) (q : List Word),
        decode (h :: q) = .error .incompleteCommand ↔ q.length + 1 < commandLength h

/-- The illegal headers are those R69 lists, and each is answered as R69 and R194 say: one word consumed, no state
changed, status 3 with the header's bits 31:24 echoed; every other header is that of a command. That the model runs on,
where R69 lets a model refuse the stream, is the model's choice (log 9). -/
def Obligations.IllegalHeadersAreAnswered : Prop :=
  ∀ (s : State) (h : Word) (q : List Word), s.cmdQ = h :: q →
    let illegal : Prop :=
      headerOpc h ∉ [0x01#8, 0x02#8, 0x03#8, 0x10#8, 0x11#8, 0x12#8, 0x13#8, 0x14#8]
        ∨ (headerOpc h ∈ [0x01#8, 0x02#8, 0x03#8, 0x10#8, 0x12#8, 0x14#8] ∧ headerArg h ≠ 0)
        ∨ (headerOpc h = 0x11#8 ∧ (headerArg h).extractLsb' 1 15 ≠ 0)
        ∨ (headerOpc h ∈ [0x10#8, 0x11#8, 0x14#8] ∧ headerFsel h ≠ 0)
    (illegal → step s = .next { s with
        cmdQ := q
        rspQ := s.rspQ ++ [{ opc := headerOpc h, status := .illegalCommand, val := 0, cursor := none, payload := [] }] })
      ∧ (¬ illegal → decode s.cmdQ ≠ .error (.illegalHeader h))
      ∧ Status.illegalCommand.code = 3

/-- The worked encodings of R75, through the assembler, and the two illegal words. A sanity check on fixed words. -/
def Obligations.WorkedEncodings : Prop :=
  assemble ["clear".toList] = some [0x10000000]
    ∧ assemble ["set_pixel 5, 10, on".toList] = some [0x11000001, 0x000A0005]
    ∧ assemble ["draw_glyph 10, 3, f8, 'A'".toList] = some [0x12080000, 0x0003000A, 0x00000041]
    ∧ assemble ["draw_string 0, 0, f8, \"AB\"".toList] = some [0x13080002, 0x00000000, 0x00000041, 0x00000042]
    ∧ assemble ["font_height f16".toList] = some [0x03100000]
    ∧ assemble ["glyph_width f8, U+00B0".toList] = some [0x02080000, 0x000000B0]
    ∧ assemble ["snapshot".toList] = some [0x14000000]
    ∧ decode [0x12080000, 0x0003000A, 0x00000041] = .ok (.drawGlyph 10 3 8 0x41, [])
    ∧ decode [0x10000001] = .error (.illegalHeader 0x10000001)
    ∧ decode [0x00000000] = .error (.illegalHeader 0x00000000)

/-! ### Steps of the block -/

/-- A step runs the command at the head of `CmdQ` on the state that has given up exactly its words (R61). -/
def Obligations.StepRunsTheDecodedCommand : Prop :=
  (∀ (s : State) (i : Instr) (rest : List Word), decode s.cmdQ = .ok (i, rest) →
      step s = exec i { s with cmdQ := rest })
    ∧ ∀ (s : State) (i : Instr) (rest : List Word), i.wf = true → s.cmdQ = encode i ++ rest →
      step s = exec i { s with cmdQ := rest }

/-- The block does nothing exactly while `CmdQ` is empty or holds only part of the command at its head (R61, R220). -/
def Obligations.IdleExactlyWithoutWholeCommand : Prop :=
  ∀ s : State, step s = .next s ↔
    s.cmdQ = [] ∨ ∃ h q, s.cmdQ = h :: q ∧ q.length + 1 < commandLength h

/-- No command ever makes an access to a byte the frame buffer or a glyph table does not have, and no step stops:
out-of-range writes are dropped, "never out-of-bounds memory access" (R46), in every state of every configuration. -/
def Obligations.NothingEverStops : Prop :=
  (∀ (i : Instr) (s : State), ∃ t, exec i s = .next t) ∧ ∀ s : State, ∃ t, step s = .next t

/-- A command whose words are all in `CmdQ`, and an illegal header, are consumed whole and leave exactly one record,
with the header's bits 31:24; no step writes the configuration (R22, R29, R61, R70). -/
def Obligations.EachCommandLeavesOneRecord : Prop :=
  ∀ (s : State) (h : Word) (q : List Word), s.cmdQ = h :: q → commandLength h ≤ q.length + 1 →
    ∃ t r, step s = .next t ∧ t.cmdQ = s.cmdQ.drop (commandLength h) ∧ t.rspQ = s.rspQ ++ [r]
      ∧ r.opc = headerOpc h ∧ t.cfg = s.cfg

/-- The invariant of R29 with the record forms of R72 is kept by every step. -/
def Obligations.StepKeepsInvariant : Prop :=
  ∀ s t : State, s.Inv → step s = .next t → t.Inv

/-- The invariant holds after reset, in every configuration. -/
def Obligations.ResetMeetsInvariant : Prop :=
  (∀ c : Cfg, (State.resetWith c).Inv) ∧ State.reset.Inv

/-- What reset leaves (R30): a zero frame buffer, empty queues, the glyph tables as configured. The working registers
are unspecified and unobservable: whatever they hold, every run from reset over any words sent, of any number of steps,
leaves the same frame buffer, queues and configuration. -/
def Obligations.ResetState : Prop :=
  ∀ c : Cfg, (∀ p x, p < c.pages → x < c.width → (State.resetWith c).cell p x = 0)
    ∧ (State.resetWith c).cmdQ = [] ∧ (State.resetWith c).rspQ = [] ∧ (State.resetWith c).cfg = c
    ∧ ∀ (words : List Word) (w : Working) (k : Nat), ∃ (t : State) (w' : Working),
        Sys2Proof.core.run k (hostSend words (State.resetWith c)) = .next t
          ∧ Sys2Proof.core.run k { hostSend words (State.resetWith c) with work := w }
            = .next { t with work := w' }

/-- After reset the block is idle; the first command may be any; a snapshot straight after reset is all zero (R211,
marked derived by the spec). -/
def Obligations.FirstCommandAfterReset : Prop :=
  ∀ c : Cfg, step (State.resetWith c) = .next (State.resetWith c)
    ∧ (∀ i : Instr, i.wf = true → step (hostCommand i (State.resetWith c)) = exec i (State.resetWith c))
    ∧ step (hostCommand .snapshot (State.resetWith c)) = .next { State.resetWith c with
        rspQ := [{ opc := 0x14, status := .ok, val := 0, cursor := none, payload := List.replicate (c.pages * c.width) 0 }] }

/-- Liveness with its bound: from every state the block reaches, in at most as many steps as `CmdQ` has words, a state
in which it waits; every one of these steps left a record (R222). -/
def Obligations.QueueDrains : Prop :=
  ∀ s : State, ∃ (k : Nat) (t : State), k ≤ s.cmdQ.length ∧ Sys2Proof.core.run k s = .next t ∧ step t = .next t
    ∧ t.rspQ.length = s.rspQ.length + k

/-- Every command writes each working register before it reads it: what the registers hold before a step shows in
nothing the step leaves but the registers (R28, R30). -/
def Obligations.WorkingRegistersAreUnobservable : Prop :=
  ∀ (s : State) (w : Working), ∃ (t : State) (w' : Working),
    step s = .next t ∧ step { s with work := w } = .next { t with work := w' }

/-- Words that arrive later do not change what a whole command, or an illegal header, already in the queue does (R50,
R61). -/
def Obligations.LaterWordsDoNotDisturb : Prop :=
  ∀ (s t : State) (words : List Word), s.enabled = true → step s = .next t →
    step (hostSend words s) = .next (hostSend words t)

/-- The host may take a record before or after a step, with the same record and the same state (R202). -/
def Obligations.TakingRecordsDoesNotDisturb : Prop :=
  ∀ (s s' t : State) (r : Response), hostTake s = some (r, s') → step s = .next t →
    ∃ t', step s' = .next t' ∧ hostTake t = some (r, t')

/-! ### The response port -/

/-- Payload packing and the cursor word (R71): the words a payload takes, and byte `k` in its place, the bytes beyond
the payload 0. -/
def Obligations.PayloadPacking : Prop :=
  (∀ b : List Byte, (packPayload b).length = (b.length + 3) / 4)
    ∧ (∀ (b : List Byte) (k : Nat), ((packPayload b).getD (k / 4) 0).extractLsb' (8 * (k % 4)) 8 = b.getD k 0)
    ∧ ∀ c : Cursor, c.word.extractLsb' 16 16 = c.y ∧ c.word.extractLsb' 0 16 = c.x

/-- The words of a record: the header's three fields and the four status codes, the cursor word, the payload (R70). -/
def Obligations.RecordWords : Prop :=
  ∀ r : Response, ∃ h, r.words = h :: ((match r.cursor with | none => [] | some c => [c.word]) ++ packPayload r.payload)
    ∧ h.extractLsb' 24 8 = r.opc
    ∧ (h.extractLsb' 16 8 = match r.status with
        | .ok => 0#8
        | .notRepresentable => 1#8
        | .unconfiguredFont => 2#8
        | .illegalCommand => 3#8)
    ∧ h.extractLsb' 0 16 = r.val

/-! ### The font catalog (`40_font_catalog.md`) -/

/-- `FONTS` is a partial map, and every command that takes a font resolves it first: unconfigured, it reports status 2
and does nothing else, also for an unprintable character and for the empty string (R91). -/
def Obligations.FontIsResolvedFirst : Prop :=
  (∀ (cfg : Cfg) (font : FontSel) (F : Font), resolveFont cfg font = some F ↔ (font, F) ∈ cfg.data.fonts)
    ∧ ∀ (s : State) (font : FontSel), resolveFont s.cfg font = none →
      (∀ ch, exec (.glyphFor font ch) s = .next { s with rspQ := s.rspQ ++
          [{ opc := 0x01, status := .unconfiguredFont, val := 0, cursor := none, payload := [] }] })
      ∧ (∀ ch, exec (.glyphWidth font ch) s = .next { s with rspQ := s.rspQ ++
          [{ opc := 0x02, status := .unconfiguredFont, val := 0, cursor := none, payload := [] }] })
      ∧ exec (.fontHeight font) s = .next { s with rspQ := s.rspQ ++
          [{ opc := 0x03, status := .unconfiguredFont, val := 0, cursor := none, payload := [] }] }
      ∧ (∀ x y ch, exec (.drawGlyph x y font ch) s = .next { s with rspQ := s.rspQ ++
          [{ opc := 0x12, status := .unconfiguredFont, val := 0, cursor := none, payload := [] }] })
      ∧ ∀ x y text, exec (.drawString x y font text) s = .next { s with
          rspQ := s.rspQ ++
            [{ opc := 0x13, status := .unconfiguredFont, val := 0, cursor := some ⟨x, y⟩, payload := [] }]
          work := { s.work with curX := x, curY := y, si := 0 } }

/-- The lookup of a character in a configured font, case by case (R92): low control characters, the printable range,
the linear scan of the extra codes, 0x7F, every other code. -/
def Obligations.LookupAnswers : Prop :=
  ∀ (cfg : Cfg) (font : FontSel) (F : Font) (ch : CharCode), resolveFont cfg font = some F →
    (ch.toNat < 0x20 → glyphIndex F ch = none)
      ∧ (0x20 ≤ ch.toNat → ch.toNat ≤ 0x7E → glyphIndex F ch = some (.ascii, ch.toNat - 0x20))
      ∧ (ch.toNat = 0x7F → glyphIndex F ch = none)
      ∧ (∀ k, F.extraCodes[k]? = some ch → glyphIndex F ch = some (.extra, k))
      ∧ (0x7E < ch.toNat → ch ∉ F.extraCodes → glyphIndex F ch = none)
      ∧ (∀ s, glyphIndex F ch = none → lookup F ch s = none)
      ∧ ∀ s t k, glyphIndex F ch = some (t, k) → lookup F ch s =
          some (⟨tableBytes F t, k * F.gsize⟩, { s with work := { s.work with gi := BitVec.ofNat 8 k } })

/-- Every representable character of a configured font has a glyph of exactly `(height / 8) * width` bytes, all of
them in the table, row by row (R42, R93). -/
def Obligations.GlyphHasItsSize : Prop :=
  ∀ (cfg : Cfg) (font : FontSel) (F : Font) (ch : CharCode) (t : Table) (k : Nat),
    resolveFont cfg font = some F → glyphIndex F ch = some (t, k) →
      F.gsize = F.height / 8 * F.width
        ∧ ∀ i j, i < F.rows → j < F.cols → ∃ b,
          (Glyph.mk (tableBytes F t) (k * F.gsize)).read (i * F.cols + j) = .ok b
            ∧ (tableBytes F t)[k * F.gsize + (i * F.cols + j)]? = some b

/-- `GLYPH_FOR` (R96): its words; status 2 without the font, status 1 without the glyph; else `VAL` gives rows and
columns, and the payload the glyph's bytes in table order. Nothing but `GI` and `RspQ` changes. -/
def Obligations.GlyphForReturnsTheGlyph : Prop :=
  ∀ (s : State) (font : FontSel) (ch : CharCode),
    (∀ q, decode ((0x01#8 ++ font ++ 0#16) :: ch :: q) = .ok (.glyphFor font ch, q))
      ∧ match resolveFont s.cfg font with
        | none => exec (.glyphFor font ch) s = .next { s with rspQ := s.rspQ ++
            [{ opc := 0x01, status := .unconfiguredFont, val := 0, cursor := none, payload := [] }] }
        | some F =>
          match glyphIndex F ch with
          | none => exec (.glyphFor font ch) s = .next { s with rspQ := s.rspQ ++
              [{ opc := 0x01, status := .notRepresentable, val := 0, cursor := none, payload := [] }] }
          | some (t, k) => exec (.glyphFor font ch) s = .next { s with
              rspQ := s.rspQ ++ [{
                opc := 0x01
                status := .ok
                val := BitVec.ofNat 16 (F.rows * 256 + F.cols)
                cursor := none
                payload := (List.range F.gsize).map fun m => (tableBytes F t).getD (k * F.gsize + m) 0 }]
              work := { s.work with gi := BitVec.ofNat 8 k } }

/-- `GLYPH_WIDTH` (R97): its words; it fails exactly as `GLYPH_FOR` does; else `VAL` is the font's width, below 256 and
the same for every character. Nothing but `GI` and `RspQ` changes. -/
def Obligations.GlyphWidthReturnsTheFontsWidth : Prop :=
  ∀ (s : State) (font : FontSel) (ch : CharCode),
    (∀ q, decode ((0x02#8 ++ font ++ 0#16) :: ch :: q) = .ok (.glyphWidth font ch, q))
      ∧ match resolveFont s.cfg font with
        | none => exec (.glyphWidth font ch) s = .next { s with rspQ := s.rspQ ++
            [{ opc := 0x02, status := .unconfiguredFont, val := 0, cursor := none, payload := [] }] }
        | some F =>
          match glyphIndex F ch with
          | none => exec (.glyphWidth font ch) s = .next { s with rspQ := s.rspQ ++
              [{ opc := 0x02, status := .notRepresentable, val := 0, cursor := none, payload := [] }] }
          | some (_, k) => F.width < 256 ∧ exec (.glyphWidth font ch) s = .next { s with
              rspQ := s.rspQ ++
                [{ opc := 0x02, status := .ok, val := BitVec.ofNat 16 F.width, cursor := none, payload := [] }]
              work := { s.work with gi := BitVec.ofNat 8 k } }

/-- `FONT_HEIGHT` (R98): its word; status 2 without the font; else `VAL` is the font's height, which is the selector.
Nothing but `RspQ` changes. -/
def Obligations.FontHeightReturnsTheSelector : Prop :=
  ∀ (s : State) (font : FontSel),
    (∀ q, decode ((0x03#8 ++ font ++ 0#16) :: q) = .ok (.fontHeight font, q))
      ∧ match resolveFont s.cfg font with
        | none => exec (.fontHeight font) s = .next { s with rspQ := s.rspQ ++
            [{ opc := 0x03, status := .unconfiguredFont, val := 0, cursor := none, payload := [] }] }
        | some F => F.height = font.toNat ∧ exec (.fontHeight font) s = .next { s with rspQ := s.rspQ ++
            [{ opc := 0x03, status := .ok, val := BitVec.ofNat 16 F.height, cursor := none, payload := [] }] }

/-- A character without a glyph in a configured font: `GLYPH_FOR`, `GLYPH_WIDTH` and `DRAW_GLYPH` report status 1 and
do nothing else (R192). -/
def Obligations.MissingGlyphIsOnlyReported : Prop :=
  ∀ (s : State) (font : FontSel) (F : Font) (ch : CharCode),
    resolveFont s.cfg font = some F → glyphIndex F ch = none →
      exec (.glyphFor font ch) s = .next { s with rspQ := s.rspQ ++
          [{ opc := 0x01, status := .notRepresentable, val := 0, cursor := none, payload := [] }] }
      ∧ exec (.glyphWidth font ch) s = .next { s with rspQ := s.rspQ ++
          [{ opc := 0x02, status := .notRepresentable, val := 0, cursor := none, payload := [] }] }
      ∧ ∀ x y, exec (.drawGlyph x y font ch) s = .next { s with rspQ := s.rspQ ++
          [{ opc := 0x12, status := .notRepresentable, val := 0, cursor := none, payload := [] }] }

/-- The queries and the drawing commands agree (R100, marked derived by the spec): one status for all four; when it is
`OK`, `DRAW_GLYPH` returns the width of `GLYPH_WIDTH` and the height of `FONT_HEIGHT`, and the bytes an aligned
`DRAW_GLYPH` leaves on the display are those `GLYPH_FOR` returns. -/
def Obligations.QueriesAgreeWithDrawing : Prop :=
  ∀ (s : State) (x y : Coord) (font : FontSel) (ch : CharCode), s.Inv →
    ∃ (a b c d e : State) (ra rb rc rd re : Response),
      exec (.glyphFor font ch) s = .next a ∧ a.rspQ = s.rspQ ++ [ra]
        ∧ exec (.glyphWidth font ch) s = .next b ∧ b.rspQ = s.rspQ ++ [rb]
        ∧ exec (.drawGlyph x y font ch) s = .next c ∧ c.rspQ = s.rspQ ++ [rc]
        ∧ exec (.drawString x y font [ch]) s = .next d ∧ d.rspQ = s.rspQ ++ [rd]
        ∧ exec (.fontHeight font) s = .next e ∧ e.rspQ = s.rspQ ++ [re]
        ∧ ra.status = rb.status ∧ ra.status = rc.status ∧ ra.status = rd.status
        ∧ (ra.status = .ok → re.status = .ok ∧ rc.val.extractLsb' 0 8 = rb.val.extractLsb' 0 8
            ∧ rc.val.extractLsb' 8 8 = re.val.extractLsb' 0 8
            ∧ (y.toNat % 8 = 0 → ∀ i j, i < (ra.val.extractLsb' 8 8).toNat → j < (ra.val.extractLsb' 0 8).toNat →
                y.toNat / 8 + i < s.cfg.pages → x.toNat + j < s.cfg.width →
                c.cell (y.toNat / 8 + i) (x.toNat + j)
                  = ra.payload.getD (i * (ra.val.extractLsb' 0 8).toNat + j) 0))

/-! ### The frame buffer (`41_framebuffer_ops.md`) -/

/-- `CLEAR` (R110): its word; every byte of the frame buffer becomes 0, nothing else changes but the record appended;
on a buffer already zero nothing changes; a snapshot after it has `PAGE * WIDTH` bytes, all 0. -/
def Obligations.ClearZeroesTheBuffer : Prop :=
  (∀ q, decode (0x10000000 :: q) = .ok (.clear, q))
    ∧ ∀ s : State, ∃ m : Memory, (∀ a, m.read a = 0) ∧ (s.fb.wf → (∀ a, s.fb.read a = 0) → m = s.fb)
      ∧ ∃ t u, exec .clear s = .next t ∧ t = { s with
          fb := m
          rspQ := s.rspQ ++ [{ opc := 0x10, status := .ok, val := 0, cursor := none, payload := [] }] }
        ∧ exec .snapshot t = .next u
        ∧ u.rspQ.getLast?.map Response.payload = some (List.replicate (s.cfg.pages * s.cfg.width) 0)

/-- `SET_PIXEL` (R112): its words; outside the display it reports `OK` and nothing else changes; inside, exactly bit
`y % 8` of `FB[y / 8][x]` takes the value `on`, and every other address, pixel, register and queue is as before, but
for `P0`, `OFF` and the record. -/
def Obligations.SetPixelWritesOnePixel : Prop :=
  ∀ (s : State) (x y : Coord) (on : Bool), s.Inv →
    (∀ q, decode ((0x11#8 ++ 0#8 ++ (if on then 1#16 else 0#16)) :: (y ++ x) :: q) = .ok (.setPixel x y on, q))
      ∧ (s.cfg.width ≤ x.toNat ∨ s.cfg.height ≤ y.toNat →
          exec (.setPixel x y on) s = .next { s with
            rspQ := s.rspQ ++ [{ opc := 0x11, status := .ok, val := 0, cursor := none, payload := [] }] })
      ∧ (x.toNat < s.cfg.width → y.toNat < s.cfg.height →
          ∃ m : Memory, exec (.setPixel x y on) s = .next { s with
                fb := m
                rspQ := s.rspQ ++ [{ opc := 0x11, status := .ok, val := 0, cursor := none, payload := [] }]
                work := { s.work with
                  p0 := BitVec.ofNat 13 (y.toNat / 8)
                  off := BitVec.ofNat 3 (y.toNat % 8) } }
            ∧ (let old := s.cell (y.toNat / 8) x.toNat
               let bit := 1#8 <<< (y.toNat % 8)
               m.read (cellAddr s.cfg (y.toNat / 8) x.toNat) = if on then old ||| bit else old &&& (0xFF#8 ^^^ bit))
            ∧ (∀ a, a ≠ cellAddr s.cfg (y.toNat / 8) x.toNat → m.read a = s.fb.read a)
            ∧ ∀ x' y', x' < s.cfg.width → y' < s.cfg.height →
                State.pixel { s with fb := m } x' y' = if x' = x.toNat ∧ y' = y.toNat then on else s.pixel x' y')

/-- Properties of `SET_PIXEL` (R114, marked derived by the spec): set then clear leaves the pixel's bit 0 and restores
the buffer where it was 0 before; each form is idempotent; two commands on different pixels commute. -/
def Obligations.SetPixelAlgebra : Prop :=
  ∀ (s : State) (x y x' y' : Coord) (on on' : Bool), s.Inv →
    ∃ a b c d e f g,
      exec (.setPixel x y true) s = .next a ∧ exec (.setPixel x y false) a = .next b
        ∧ (x.toNat < s.cfg.width → y.toNat < s.cfg.height → b.pixel x.toNat y.toNat = false
            ∧ (s.pixel x.toNat y.toNat = false → b.fb = s.fb))
        ∧ exec (.setPixel x y on) s = .next c ∧ exec (.setPixel x y on) c = .next d ∧ d.fb = c.fb
        ∧ exec (.setPixel x' y' on') c = .next e
        ∧ exec (.setPixel x' y' on') s = .next f ∧ exec (.setPixel x y on) f = .next g
        ∧ ((x, y) ≠ (x', y') → e.fb = g.fb)

/-- `SNAPSHOT` (R117, R118): the payload is every byte of the frame buffer, page 0 first; nothing but `RspQ`
changes. -/
def Obligations.SnapshotReadsTheBuffer : Prop :=
  ∀ s : State, exec .snapshot s = .next { s with rspQ := s.rspQ ++ [{
    opc := 0x14
    status := .ok
    val := 0
    cursor := none
    payload := (List.range (s.cfg.pages * s.cfg.width)).map fun k => s.cell (k / s.cfg.width) (k % s.cfg.width) }] }

/-- The pages a host cuts from a snapshot are the pages of the display, each `WIDTH` bytes (R118, R204). -/
def Obligations.SnapshotPagesAreTheDisplay : Prop :=
  ∀ (s t : State) (r : Response), exec .snapshot s = .next t → t.rspQ = s.rspQ ++ [r] →
    ∀ p, p < s.cfg.pages → pageBytes s.cfg r.payload p = (List.range s.cfg.width).map fun c => s.cell p c

/-! ### The compositor (`42_compositor.md`) -/

/-- The halves of a glyph byte, bit by bit, and that they lose nothing (R134, and R135, marked derived by the spec). -/
def Obligations.SplitHalves : Prop :=
  ∀ (off : Nat) (b : Byte), 1 ≤ off → off ≤ 7 →
    (∀ n, n < 8 → (lowHalf off b).getLsbD n = (decide (off ≤ n) && b.getLsbD (n - off)))
      ∧ (∀ n, n < 8 → (highHalf off b).getLsbD n = (decide (n < off) && b.getLsbD (8 - off + n)))
      ∧ (lowHalf off b >>> off ||| highHalf off b <<< (8 - off)) = b
      ∧ (lowHalf off b >>> off &&& highHalf off b <<< (8 - off)) = 0

/-- `DRAW_GLYPH` of a representable character completes wherever it is placed, clipped or not, and returns both
advances; the cursor registers, `CmdQ` and the configuration are as before (R132, R138). -/
def Obligations.DrawGlyphReturnsAdvances : Prop :=
  ∀ (s : State) (x y : Coord) (font : FontSel) (F : Font) (ch : CharCode) (t : Table) (k : Nat),
    resolveFont s.cfg font = some F → glyphIndex F ch = some (t, k) →
      ∃ (m : Memory) (w : Working), exec (.drawGlyph x y font ch) s = .next { s with
          fb := m
          rspQ := s.rspQ ++ [{
            opc := 0x12
            status := .ok
            val := BitVec.ofNat 16 (F.height * 256 + F.width)
            cursor := none
            payload := [] }]
          work := w }
        ∧ w = { s.work with gi := w.gi, p0 := w.p0, off := w.off, i := w.i, j := w.j }

/-- The aligned blit (R133): every glyph byte is written whole into its own cell where the display has it, and every
other address reads as before. -/
def Obligations.AlignedGlyphOnTheDisplay : Prop :=
  ∀ (s : State) (x y : Coord) (font : FontSel) (F : Font) (ch : CharCode) (t : Table) (k : Nat), s.Inv →
    resolveFont s.cfg font = some F → glyphIndex F ch = some (t, k) → y.toNat % 8 = 0 →
      ∃ u, exec (.drawGlyph x y font ch) s = .next u
        ∧ (∀ i j, i < F.rows → j < F.cols → y.toNat / 8 + i < s.cfg.pages → x.toNat + j < s.cfg.width →
            u.cell (y.toNat / 8 + i) (x.toNat + j) = glyphCell F t k i j)
        ∧ ∀ a, (∀ i j, i < F.rows → j < F.cols → y.toNat / 8 + i < s.cfg.pages → x.toNat + j < s.cfg.width →
            a ≠ cellAddr s.cfg (y.toNat / 8 + i) (x.toNat + j)) → u.fb.read a = s.fb.read a

/-- The straddling blit (R136 and R137, marked derived by the spec from R130, R131 and R134): on each of the glyph's
own pages the low half of that row, on the page below the glyph the high half of the last row, the high halves of the
rows before it overwritten; every other address reads as before. -/
def Obligations.StraddlingGlyphOnTheDisplay : Prop :=
  ∀ (s : State) (x y : Coord) (font : FontSel) (F : Font) (ch : CharCode) (t : Table) (k : Nat), s.Inv →
    resolveFont s.cfg font = some F → glyphIndex F ch = some (t, k) → y.toNat % 8 ≠ 0 →
      ∃ u, exec (.drawGlyph x y font ch) s = .next u
        ∧ (∀ i j, i < F.rows → j < F.cols → y.toNat / 8 + i < s.cfg.pages → x.toNat + j < s.cfg.width →
            u.cell (y.toNat / 8 + i) (x.toNat + j) = glyphCell F t k i j <<< (y.toNat % 8))
        ∧ (∀ j, j < F.cols → y.toNat / 8 + F.rows < s.cfg.pages → x.toNat + j < s.cfg.width →
            u.cell (y.toNat / 8 + F.rows) (x.toNat + j) = glyphCell F t k (F.rows - 1) j >>> (8 - y.toNat % 8))
        ∧ ∀ a, (∀ i j, i ≤ F.rows → j < F.cols → y.toNat / 8 + i < s.cfg.pages → x.toNat + j < s.cfg.width →
            a ≠ cellAddr s.cfg (y.toNat / 8 + i) (x.toNat + j)) → u.fb.read a = s.fb.read a

/-- Re-rendering (R130, and R139, marked derived by the spec): drawing the same glyph twice leaves the frame buffer
that drawing it once leaves. -/
def Obligations.RedrawingIsIdempotent : Prop :=
  ∀ (s : State) (x y : Coord) (font : FontSel) (ch : CharCode), s.Inv →
    ∃ t u, exec (.drawGlyph x y font ch) s = .next t ∧ exec (.drawGlyph x y font ch) t = .next u ∧ u.fb = t.fb

/-- `DRAW_STRING` is the loop of R140 on unbounded natural numbers: its picture, status and count are those of the
loop, and its reported cursor the loop's with the row saturated at 0xFFFF (R140, R141, R146). -/
def Obligations.StringMatchesUnboundedLoop : Prop :=
  ∀ (s : State) (x y : Coord) (font : FontSel) (F : Font) (text : List CharCode), s.Inv →
    resolveFont s.cfg font = some F → text.length ≤ 65535 →
      let d := drawUnbounded F s.cfg.width text x.toNat y.toNat s.cell
      ∃ u, exec (.drawString x y font text) s = .next u
        ∧ (∀ p c, p < s.cfg.pages → c < s.cfg.width → u.cell p c = d.picture p c)
        ∧ (∀ a, s.cfg.pages * s.cfg.width ≤ a → u.fb.read a = s.fb.read a)
        ∧ u.rspQ = s.rspQ ++ [{
            opc := 0x13
            status := d.status
            val := BitVec.ofNat 16 d.count
            cursor := some ⟨BitVec.ofNat 16 d.x, BitVec.ofNat 16 (min d.y 0xFFFF)⟩
            payload := [] }]
        ∧ u.cmdQ = s.cmdQ ∧ u.cfg = s.cfg

/-- Abort on failure (R143): at the first character without a glyph the string stops; the frame buffer and the cursor
are those of the characters before it, and `VAL` is its index. -/
def Obligations.StringAbortsAtFirstMissingGlyph : Prop :=
  ∀ (s : State) (x y : Coord) (font : FontSel) (F : Font) (good rest : List CharCode) (bad : CharCode),
    resolveFont s.cfg font = some F → (∀ ch ∈ good, glyphIndex F ch ≠ none) → glyphIndex F bad = none →
      ∃ u v cursor, exec (.drawString x y font good) s = .next u
        ∧ u.rspQ = s.rspQ ++ [{
            opc := 0x13
            status := .ok
            val := BitVec.ofNat 16 good.length
            cursor := some cursor
            payload := [] }]
        ∧ exec (.drawString x y font (good ++ bad :: rest)) s = .next v
        ∧ v.fb = u.fb
        ∧ v.rspQ = s.rspQ ++ [{
            opc := 0x13
            status := .notRepresentable
            val := BitVec.ofNat 16 good.length
            cursor := some cursor
            payload := [] }]

/-- The empty string in a configured font draws nothing and returns the cursor unchanged (R145, marked derived by the
spec). -/
def Obligations.EmptyStringDrawsNothing : Prop :=
  ∀ (s : State) (x y : Coord) (font : FontSel) (F : Font), resolveFont s.cfg font = some F →
    exec (.drawString x y font []) s = .next { s with
      rspQ := s.rspQ ++ [{ opc := 0x13, status := .ok, val := 0, cursor := some ⟨x, y⟩, payload := [] }]
      work := { s.work with curX := x, curY := y, si := 0 } }

/-- A string of one character changes the frame buffer as `DRAW_GLYPH` does and reports the same status (R148, marked
derived by the spec). -/
def Obligations.OneCharacterStringIsDrawGlyph : Prop :=
  ∀ (s : State) (x y : Coord) (font : FontSel) (ch : CharCode),
    ∃ t u, exec (.drawString x y font [ch]) s = .next t ∧ exec (.drawGlyph x y font ch) s = .next u
      ∧ t.fb = u.fb ∧ t.lastStatus = u.lastStatus

/-- Chaining (R146): a text drawn in two commands, the second from the cursor the first returned, leaves the frame
buffer of the whole text. The model needs no bound on the returned row for it. -/
def Obligations.StringsChain : Prop :=
  ∀ (s t : State) (x y : Coord) (font : FontSel) (first second : List CharCode) (r : Response) (cursor : Cursor),
    exec (.drawString x y font first) s = .next t → t.rspQ = s.rspQ ++ [r] → r.status = .ok → r.cursor = some cursor →
      ∃ u v, exec (.drawString x y font (first ++ second)) s = .next u
        ∧ exec (.drawString cursor.x cursor.y font second) t = .next v ∧ u.fb = v.fb

/-- A string that starts below the display changes no byte, and still looks every character up (R142, marked derived
by the spec). -/
def Obligations.StringBelowTheDisplay : Prop :=
  ∀ (s : State) (x y : Coord) (font : FontSel) (F : Font) (text : List CharCode),
    resolveFont s.cfg font = some F → s.cfg.pages ≤ y.toNat / 8 →
      ∃ t, exec (.drawString x y font text) s = .next t ∧ t.fb = s.fb
        ∧ (t.lastStatus = some .ok ↔ ∀ ch ∈ text, glyphIndex F ch ≠ none)

/-! ### Frames -/

/-- What each command leaves alone. No command writes the configuration or `CmdQ`, or takes a record from `RspQ`;
the queries and `SNAPSHOT` leave every byte of the frame buffer; of the working registers each command changes only
those its pseudocode writes (R22, R25, R29, R49). -/
def Obligations.CommandFrames : Prop :=
  ∀ (i : Instr) (s t : State), exec i s = .next t →
    t.cfg = s.cfg ∧ t.cmdQ = s.cmdQ ∧ (∃ r, t.rspQ = s.rspQ ++ [r])
      ∧ match i with
        | .glyphFor _ _ => t.fb = s.fb ∧ t.work = { s.work with gi := t.work.gi }
        | .glyphWidth _ _ => t.fb = s.fb ∧ t.work = { s.work with gi := t.work.gi }
        | .fontHeight _ => t.fb = s.fb ∧ t.work = s.work
        | .clear => t.work = s.work
        | .setPixel _ _ _ => t.work = { s.work with p0 := t.work.p0, off := t.work.off }
        | .drawGlyph _ _ _ _ => t.work = { t.work with curX := s.work.curX, curY := s.work.curY, si := s.work.si }
        | .drawString _ _ _ _ => True
        | .snapshot => t.fb = s.fb ∧ t.work = s.work

/-- Every command leaves the same frame buffer and the same record whatever stands in `CmdQ` and `RspQ` (R24, R26: no
value is kept from one command to the next except in `FB`). -/
def Obligations.CommandsShareOnlyTheBuffer : Prop :=
  ∀ (i : Instr) (s s' : State), s.cfg = s'.cfg → s.fb = s'.fb →
    ∃ t t' r, exec i s = .next t ∧ exec i s' = .next t' ∧ t.fb = t'.fb
      ∧ t.rspQ = s.rspQ ++ [r] ∧ t'.rspQ = s'.rspQ ++ [r]

/-! ### The LineBuffer companion (`48_linebuffer_companion.md`) -/

/-- `new` (R161), and the invariants of R170 (marked derived by the spec): `new` establishes them and every operation
keeps them; `new(0)` is refused. -/
def Obligations.LineBufferKeepsInvariant : Prop :=
  LineBuffer.new 0 = none
    ∧ (∀ n, 1 ≤ n → LineBuffer.new n = some ⟨[], n, 0⟩ ∧ LineBuffer.Inv ⟨[], n, 0⟩)
    ∧ ∀ (lb : LineBuffer) (text : List CharCode), lb.Inv → (lb.push text).Inv ∧ lb.clear.Inv

/-- A line feed inserts an empty head line, evicts the oldest where the count exceeds the maximum, and resets the
cursor (R164); in a LineBuffer without lines one line is ensured first (R163). -/
def Obligations.LineFeedInsertsAndEvicts : Prop :=
  ∀ lb : LineBuffer, 1 ≤ lb.lenMax → lb.lines.length ≤ lb.lenMax →
    (lb.pushChar lineFeed).lines = ([] :: if lb.lines = [] then [[]] else lb.lines).take lb.lenMax
      ∧ (lb.pushChar lineFeed).index = 0 ∧ (lb.pushChar lineFeed).lenMax = lb.lenMax
      ∧ (lb.pushChar lineFeed).lines.length ≤ lb.lenMax

/-- A carriage return resets the cursor and changes no line (R165); in a LineBuffer without lines one line is ensured
first (R163). -/
def Obligations.CarriageReturnKeepsTheLine : Prop :=
  ∀ lb : LineBuffer,
    lb.pushChar carriageReturn = ⟨if lb.lines = [] then [[]] else lb.lines, lb.lenMax, 0⟩

/-- Any other character is written at the cursor of the head line, padded with spaces up to it, replacing what stands
there; the rest of the line and the other lines stay, and the cursor advances by one (R166); in a LineBuffer without
lines one line is ensured first (R163). -/
def Obligations.CharacterIsWrittenAtTheCursor : Prop :=
  ∀ (lb : LineBuffer) (head : List CharCode) (older : List (List CharCode)) (ch : CharCode),
    ch ≠ lineFeed → ch ≠ carriageReturn → (if lb.lines = [] then [[]] else lb.lines) = head :: older →
      ∃ new, lb.pushChar ch = ⟨new :: older, lb.lenMax, lb.index + 1⟩
        ∧ new.length = max head.length (lb.index + 1)
        ∧ (∀ n, new[n]? =
            if n = lb.index then some ch
            else if n < head.length then head[n]?
            else if n < lb.index then some 0x20
            else none)

/-- The source's worked examples (R172). A sanity check on fixed texts. -/
def Obligations.LineBufferExamples : Prop :=
  ((LineBuffer.mk [] 3 0).push [0x61, 0x0A, 0x62, 0x0A, 0x63, 0x0A, 0x64]).lines = [[0x64], [0x63], [0x62]]
    ∧ ((LineBuffer.mk [] 2 0).push [0x61, 0x62, 0x0D, 0x58]).lines = [[0x58, 0x62]]
    ∧ ((LineBuffer.mk [[0x61, 0x62]] 2 5).push [0x63]) = ⟨[[0x61, 0x62, 0x20, 0x20, 0x20, 0x63]], 2, 6⟩
end

