-- ==== Sys2Proof/Laws/Config.lean ====
section
/-! SUPPORT. What a configuration guarantees (R7, R8), and what resolving a font and a character answers. -/

namespace Sys2Proof

theorem Cfg.facts (c : Cfg) : 1 ≤ c.width ∧ c.width ≤ 65535 ∧ c.height % 8 = 0 ∧ 8 ≤ c.height ∧ c.height ≤ 65528
    ∧ (c.data.fonts.map fun e => e.1.toNat).Pairwise (· < ·) ∧ ∀ e ∈ c.data.fonts, Font.wf e.1 e.2 = true := by
  have := c.ok
  unfold CfgData.wf at this
  exact of_decide_eq_true this

theorem Cfg.width_pos (c : Cfg) : 0 < c.width := c.facts.1
theorem Cfg.width_le (c : Cfg) : c.width ≤ 65535 := c.facts.2.1

theorem Cfg.height_eq (c : Cfg) : c.height = 8 * c.pages := by
  have h := c.facts.2.2.1
  unfold Cfg.pages
  unfold Cfg.height at *
  omega

theorem Cfg.pages_pos (c : Cfg) : 0 < c.pages := by
  have h := c.facts.2.2.2.1
  have := c.height_eq
  omega

theorem Cfg.pages_le (c : Cfg) : c.pages ≤ 8191 := by
  have h := c.facts.2.2.2.2.1
  have := c.height_eq
  omega

/-- R8 for one descriptor, as facts. -/
structure Font.Facts (fsel : FontSel) (F : Font) : Prop where
  height_eq : F.height = fsel.toNat
  height_rows : F.height = 8 * F.rows
  rows_pos : 1 ≤ F.rows
  rows_le : F.rows ≤ 31
  cols_pos : 1 ≤ F.cols
  cols_le : F.cols ≤ 255
  ascii_length : F.ascii.length = 95 * F.gsize
  codes_length : F.extraCodes.length ≤ 255
  codes_nodup : F.extraCodes.Nodup
  codes_high : ∀ c ∈ F.extraCodes, 0x80 ≤ c.toNat
  extra_length : F.extra.length = F.extraCodes.length * F.gsize

theorem Font.facts_of_wf {fsel : FontSel} {F : Font} (h : F.wf fsel = true) : F.Facts fsel := by
  unfold Font.wf at h
  obtain ⟨h1, h2, h3, h4, h5, h6, h7, h8, h9, h10, h11⟩ := of_decide_eq_true h
  exact ⟨h1, by unfold Font.rows; omega, by unfold Font.rows; omega, by unfold Font.rows; omega, h5, h6, h7, h8, h9,
    fun c hc => of_decide_eq_true (List.all_eq_true.1 h10 c hc), h11⟩

end Sys2Proof

namespace Sys2Proof.Machine

theorem findFont_mem {fsel : FontSel} {fonts : List (FontSel × Font)} {F : Font}
    (h : findFont fsel fonts = some F) : (fsel, F) ∈ fonts := by
  induction fonts with
  | nil => cases h
  | cons e fonts ih =>
    obtain ⟨k, G⟩ := e
    simp only [findFont] at h
    split at h
    · next hk => cases h; simp [hk]
    · exact List.mem_cons_of_mem _ (ih h)

/-- A resolved font meets every constraint of R8. -/
theorem resolveFont_facts {cfg : Cfg} {fsel : FontSel} {F : Font} (h : resolveFont cfg fsel = some F) :
    F.Facts fsel :=
  Font.facts_of_wf (cfg.facts.2.2.2.2.2.2 _ (findFont_mem h))

/-- The scan gives a position that holds the code. -/
theorem scanCodes_some {ch : CharCode} {codes : List CharCode} {k n : Nat} (h : scanCodes ch codes k = some n) :
    ∃ m, n = k + m ∧ codes[m]? = some ch := by
  induction codes generalizing k with
  | nil => cases h
  | cons c codes ih =>
    simp only [scanCodes] at h
    split at h
    · next hc => cases h; exact ⟨0, by simp [hc]⟩
    · obtain ⟨m, rfl, hm⟩ := ih h
      exact ⟨m + 1, by omega, by simpa using hm⟩

/-- The scan fails exactly for the codes that are not listed. -/
theorem scanCodes_none {ch : CharCode} {codes : List CharCode} {k : Nat} :
    scanCodes ch codes k = none ↔ ch ∉ codes := by
  induction codes generalizing k with
  | nil => simp [scanCodes]
  | cons c codes ih =>
    simp only [scanCodes]
    split
    · next hc => simp [hc]
    · next hc => rw [ih]; simp [Ne.symm hc]

/-- The three answers of the character resolution (R92). -/
theorem glyphIndex_cases {F : Font} {ch : CharCode} {t : Table} {k : Nat} (h : glyphIndex F ch = some (t, k)) :
    (t = .ascii ∧ k = ch.toNat - 0x20 ∧ 0x20 ≤ ch.toNat ∧ ch.toNat ≤ 0x7E)
      ∨ (t = .extra ∧ 0x7E < ch.toNat ∧ F.extraCodes[k]? = some ch) := by
  unfold glyphIndex spaceCode lastPrintable at h
  split at h
  · cases h
  · split at h
    · cases h; exact .inl ⟨rfl, rfl, by omega, by omega⟩
    · obtain ⟨n, hn, h⟩ := Option.map_eq_some_iff.1 h
      cases h
      obtain ⟨m, rfl, hm⟩ := scanCodes_some hn
      exact .inr ⟨rfl, by omega, by simpa using hm⟩

/-- A representable character's index fits the register `GI`, and its glyph lies inside the table (R93, R94). -/
theorem glyphIndex_bounds {fsel : FontSel} {F : Font} (hF : F.Facts fsel) {ch : CharCode} {t : Table} {k : Nat}
    (h : glyphIndex F ch = some (t, k)) : k < 256 ∧ k * F.gsize + F.gsize ≤ (tableBytes F t).length := by
  rcases glyphIndex_cases h with ⟨rfl, hk, h1, h2⟩ | ⟨rfl, _, hk⟩
  · refine ⟨by omega, ?_⟩
    have : (k + 1) * F.gsize ≤ 95 * F.gsize := Nat.mul_le_mul_right _ (by omega)
    simp only [tableBytes, hF.ascii_length]
    rwa [Nat.succ_mul] at this
  · have hlt : k < F.extraCodes.length := by
      rw [List.getElem?_eq_some_iff] at hk; exact hk.1
    refine ⟨by have := hF.codes_length; omega, ?_⟩
    have : (k + 1) * F.gsize ≤ F.extraCodes.length * F.gsize := Nat.mul_le_mul_right _ (by omega)
    simp only [tableBytes, hF.extra_length]
    rwa [Nat.succ_mul] at this

/-- The lookup of a representable character writes `GI` and answers the glyph at `GI * gsize` (R92). -/
theorem lookup_eq_some {fsel : FontSel} {F : Font} (hF : F.Facts fsel) {ch : CharCode} {t : Table} {k : Nat}
    (h : glyphIndex F ch = some (t, k)) (s : State) :
    lookup F ch s = some (⟨tableBytes F t, k * F.gsize⟩, s.setGi (BitVec.ofNat 8 k)) := by
  have hk := (glyphIndex_bounds hF h).1
  have : (BitVec.ofNat 8 k).toNat = k := by simp; omega
  simp [lookup, glyphAtIndex, h, State.setGi, State.setWork, this]

theorem lookup_eq_none {F : Font} {ch : CharCode} (h : glyphIndex F ch = none) (s : State) :
    lookup F ch s = none := by
  simp [lookup, h]

/-- A read inside the table answers the byte there (R42). -/
theorem Glyph.read_ok {g : Glyph} {k : Nat} (h : g.base + k < g.table.length) :
    g.read k = .ok (g.table.getD (g.base + k) 0) := by
  simp [Glyph.read, h]

end Sys2Proof.Machine
end

