-- ==== Sys2Proof/Laws/Memory.lean ====
section
/-! SUPPORT. The frame buffer as sparse memory: read after write, the canonical form, and that equal contents are
equal lists. -/

namespace Sys2Proof.Machine

@[simp] theorem Memory.read_nil (a : Nat) : Memory.read [] a = 0#8 := rfl

theorem Memory.read_cons (e : Host.Cell) (m : Memory) (a : Nat) :
    Memory.read (e :: m) a = if a = e.1 then e.2 else Memory.read m a := rfl

/-- Below every listed address nothing is listed. -/
theorem Memory.read_below {m : Memory} {a : Nat} (h : ∀ e ∈ m, a < e.1) : Memory.read m a = 0#8 := by
  induction m with
  | nil => rfl
  | cons e m ih =>
    have he : a ≠ e.1 := by have := h e (by simp); omega
    rw [Memory.read_cons, if_neg he]
    exact ih fun e' he' => h e' (by simp [he'])

theorem Memory.wf_cons {e : Host.Cell} {m : Memory} :
    Memory.wf (e :: m) ↔ (∀ e' ∈ m, e.1 < e'.1) ∧ e.2 ≠ 0#8 ∧ Memory.wf m := by
  constructor
  · rintro ⟨h1, h2⟩
    simp only [List.map_cons, List.pairwise_cons, List.mem_map] at h1
    exact ⟨fun e' he' => h1.1 _ ⟨e', he', rfl⟩, h2 e (by simp), h1.2, fun e' he' => h2 e' (by simp [he'])⟩
  · rintro ⟨h1, h2, h3, h4⟩
    refine ⟨?_, ?_⟩
    · simp only [List.map_cons, List.pairwise_cons, List.mem_map]
      exact ⟨by rintro a ⟨e', he', rfl⟩; exact h1 e' he', h3⟩
    · intro e' he'
      rcases List.mem_cons.1 he' with rfl | he'
      · exact h2
      · exact h4 e' he'

/-- The entries `entry` puts before `m` are the new one, where it is listed at all, and those of `m`. -/
theorem Memory.mem_entry {a : Nat} {v : Byte} {m : Memory} {e : Host.Cell} (h : e ∈ Memory.entry a v m) :
    (e = (a, v) ∧ v ≠ 0#8) ∨ e ∈ m := by
  unfold Memory.entry at h
  split at h
  · exact .inr h
  · rcases List.mem_cons.1 h with h | h
    · exact .inl ⟨h, ‹_›⟩
    · exact .inr h

theorem Memory.wf_entry {a : Nat} {v : Byte} {m : Memory} (hm : m.wf) (h : ∀ e ∈ m, a < e.1) :
    (Memory.entry a v m).wf := by
  unfold Memory.entry
  split
  · exact hm
  · exact Memory.wf_cons.2 ⟨h, ‹_›, hm⟩

theorem Memory.read_entry {a : Nat} {v : Byte} {m : Memory} (h : ∀ e ∈ m, a < e.1) (b : Nat) :
    (Memory.entry a v m).read b = if b = a then v else m.read b := by
  unfold Memory.entry
  split
  · next hv =>
    split
    · next hb => rw [hb, Memory.read_below h, hv]; rfl
    · rfl
  · rw [Memory.read_cons]

/-- Every entry after a write is the written one or was there before. -/
theorem Memory.mem_write {m : Memory} {a : Nat} {v : Byte} {e : Host.Cell} (h : e ∈ m.write a v) :
    (e = (a, v) ∧ v ≠ 0#8) ∨ e ∈ m := by
  induction m with
  | nil => exact Memory.mem_entry h
  | cons d m ih =>
    simp only [Memory.write] at h
    split at h
    · exact Memory.mem_entry h
    · split at h
      · rcases Memory.mem_entry h with h | h
        · exact .inl h
        · exact .inr (by simp [h])
      · rcases List.mem_cons.1 h with h | h
        · exact .inr (by simp [h])
        · rcases ih h with h | h
          · exact .inl h
          · exact .inr (by simp [h])

/-- A write keeps the canonical form. -/
theorem Memory.write_wf {m : Memory} (hm : m.wf) (a : Nat) (v : Byte) : (m.write a v).wf := by
  induction m with
  | nil => exact Memory.wf_entry hm (by simp)
  | cons d m ih =>
    obtain ⟨hlt, hd, hm'⟩ := Memory.wf_cons.1 hm
    simp only [Memory.write]
    split
    · refine Memory.wf_entry hm fun e he => ?_
      rcases List.mem_cons.1 he with rfl | he
      · assumption
      · have := hlt e he; omega
    · split
      · next h => exact Memory.wf_entry hm' fun e he => h ▸ hlt e he
      · refine Memory.wf_cons.2 ⟨fun e he => ?_, hd, ih hm'⟩
        rcases Memory.mem_write he with ⟨rfl, _⟩ | he
        · show d.1 < a; omega
        · exact hlt e he

/-- A write at an address the buffer has keeps every listed address one the buffer has. -/
theorem Memory.write_within {m : Memory} {size a : Nat} (hm : m.within size) (ha : a < size) (v : Byte) :
    (m.write a v).within size := by
  intro e he
  rcases Memory.mem_write he with ⟨rfl, _⟩ | he
  · exact ha
  · exact hm e he

/-- Read after write. -/
theorem Memory.read_write {m : Memory} (hm : m.wf) (a : Nat) (v : Byte) (b : Nat) :
    (m.write a v).read b = if b = a then v else m.read b := by
  induction m with
  | nil => exact Memory.read_entry (by simp) b
  | cons d m ih =>
    obtain ⟨hlt, _, hm'⟩ := Memory.wf_cons.1 hm
    simp only [Memory.write]
    split
    · refine Memory.read_entry (fun e he => ?_) b
      rcases List.mem_cons.1 he with rfl | he
      · assumption
      · have := hlt e he; omega
    · split
      · next h =>
        rw [Memory.read_entry fun e he => h ▸ hlt e he, Memory.read_cons, ← h]
        split <;> rfl
      · next h =>
        rw [Memory.read_cons, Memory.read_cons, ih hm']
        by_cases hb : b = d.1
        · have : b ≠ a := by omega
          rw [if_pos hb, if_neg this, if_pos hb]
        · rw [if_neg hb, if_neg hb]

/-- Outside the listed addresses the memory reads as unlisted. -/
theorem Memory.read_outside {m : Memory} {size a : Nat} (hm : m.within size) (ha : size ≤ a) : m.read a = 0#8 := by
  induction m with
  | nil => rfl
  | cons d m ih =>
    have hd := hm d (by simp)
    rw [Memory.read_cons, if_neg (by omega)]
    exact ih fun e he => hm e (by simp [he])

/-- In the canonical form equal contents are equal lists. -/
theorem Memory.ext_read {m n : Memory} (hm : m.wf) (hn : n.wf) (h : ∀ a, m.read a = n.read a) : m = n := by
  induction m generalizing n with
  | nil =>
    cases n with
    | nil => rfl
    | cons e n =>
      have := h e.1
      rw [Memory.read_cons, if_pos rfl] at this
      exact absurd this.symm (Memory.wf_cons.1 hn).2.1
  | cons d m ih =>
    obtain ⟨hlt, hd, hm'⟩ := Memory.wf_cons.1 hm
    cases n with
    | nil =>
      have := h d.1
      rw [Memory.read_cons, if_pos rfl] at this
      exact absurd this hd
    | cons e n =>
      obtain ⟨hlt', he, hn'⟩ := Memory.wf_cons.1 hn
      have hde : d.1 = e.1 := by
        rcases Nat.lt_trichotomy d.1 e.1 with hlt1 | heq | hgt
        · have := h d.1
          rw [Memory.read_cons, if_pos rfl, Memory.read_below (m := e :: n)] at this
          · exact absurd this hd
          · intro e' he'
            rcases List.mem_cons.1 he' with rfl | he'
            · exact hlt1
            · have := hlt' e' he'; omega
        · exact heq
        · have := h e.1
          rw [Memory.read_cons (e := e), if_pos rfl, Memory.read_below (m := d :: m)] at this
          · exact absurd this.symm he
          · intro e' he'
            rcases List.mem_cons.1 he' with rfl | he'
            · exact hgt
            · have := hlt e' he'; omega
      have hv : d = e := by
        have := h d.1
        rw [Memory.read_cons, if_pos rfl, Memory.read_cons, if_pos hde] at this
        exact Prod.ext hde this
      subst hv
      congr 1
      refine ih hm' hn' fun a => ?_
      have := h a
      rw [Memory.read_cons, Memory.read_cons] at this
      by_cases ha : a = d.1
      · rw [ha, Memory.read_below hlt, Memory.read_below hlt']
      · rwa [if_neg ha, if_neg ha] at this

end Sys2Proof.Machine
end

