-- ==== Sys2Proof/Laws/State.lean ====
section
/-! SUPPORT. What each update of the state leaves in each field: one lemma per field and update, so that no later
proof unfolds a record update. -/

namespace Sys2Proof.Machine

@[simp] theorem State.setFb_cfg (s : State) (m : Memory) : (s.setFb m).cfg = s.cfg := rfl
@[simp] theorem State.setFb_fb (s : State) (m : Memory) : (s.setFb m).fb = m := rfl
@[simp] theorem State.setFb_cmdQ (s : State) (m : Memory) : (s.setFb m).cmdQ = s.cmdQ := rfl
@[simp] theorem State.setFb_rspQ (s : State) (m : Memory) : (s.setFb m).rspQ = s.rspQ := rfl
@[simp] theorem State.setFb_work (s : State) (m : Memory) : (s.setFb m).work = s.work := rfl

@[simp] theorem State.setCmdQ_cfg (s : State) (q : List Word) : (s.setCmdQ q).cfg = s.cfg := rfl
@[simp] theorem State.setCmdQ_fb (s : State) (q : List Word) : (s.setCmdQ q).fb = s.fb := rfl
@[simp] theorem State.setCmdQ_cmdQ (s : State) (q : List Word) : (s.setCmdQ q).cmdQ = q := rfl
@[simp] theorem State.setCmdQ_rspQ (s : State) (q : List Word) : (s.setCmdQ q).rspQ = s.rspQ := rfl
@[simp] theorem State.setCmdQ_work (s : State) (q : List Word) : (s.setCmdQ q).work = s.work := rfl

@[simp] theorem State.setWork_cfg (s : State) (w : Working) : (s.setWork w).cfg = s.cfg := rfl
@[simp] theorem State.setWork_fb (s : State) (w : Working) : (s.setWork w).fb = s.fb := rfl
@[simp] theorem State.setWork_cmdQ (s : State) (w : Working) : (s.setWork w).cmdQ = s.cmdQ := rfl
@[simp] theorem State.setWork_rspQ (s : State) (w : Working) : (s.setWork w).rspQ = s.rspQ := rfl
@[simp] theorem State.setWork_work (s : State) (w : Working) : (s.setWork w).work = w := rfl

@[simp] theorem State.respond_cfg (s : State) (r : Response) : (s.respond r).cfg = s.cfg := rfl
@[simp] theorem State.respond_fb (s : State) (r : Response) : (s.respond r).fb = s.fb := rfl
@[simp] theorem State.respond_cmdQ (s : State) (r : Response) : (s.respond r).cmdQ = s.cmdQ := rfl
@[simp] theorem State.respond_rspQ (s : State) (r : Response) : (s.respond r).rspQ = s.rspQ ++ [r] := rfl
@[simp] theorem State.respond_work (s : State) (r : Response) : (s.respond r).work = s.work := rfl

@[simp] theorem State.setCurX_cfg (s : State) (v : BitVec 16) : (s.setCurX v).cfg = s.cfg := rfl
@[simp] theorem State.setCurX_fb (s : State) (v : BitVec 16) : (s.setCurX v).fb = s.fb := rfl
@[simp] theorem State.setCurX_cmdQ (s : State) (v : BitVec 16) : (s.setCurX v).cmdQ = s.cmdQ := rfl
@[simp] theorem State.setCurX_rspQ (s : State) (v : BitVec 16) : (s.setCurX v).rspQ = s.rspQ := rfl
@[simp] theorem State.setCurX_work (s : State) (v : BitVec 16) : (s.setCurX v).work = { s.work with curX := v } := rfl

@[simp] theorem State.setCurY_cfg (s : State) (v : BitVec 16) : (s.setCurY v).cfg = s.cfg := rfl
@[simp] theorem State.setCurY_fb (s : State) (v : BitVec 16) : (s.setCurY v).fb = s.fb := rfl
@[simp] theorem State.setCurY_cmdQ (s : State) (v : BitVec 16) : (s.setCurY v).cmdQ = s.cmdQ := rfl
@[simp] theorem State.setCurY_rspQ (s : State) (v : BitVec 16) : (s.setCurY v).rspQ = s.rspQ := rfl
@[simp] theorem State.setCurY_work (s : State) (v : BitVec 16) : (s.setCurY v).work = { s.work with curY := v } := rfl

@[simp] theorem State.setSi_cfg (s : State) (v : BitVec 16) : (s.setSi v).cfg = s.cfg := rfl
@[simp] theorem State.setSi_fb (s : State) (v : BitVec 16) : (s.setSi v).fb = s.fb := rfl
@[simp] theorem State.setSi_cmdQ (s : State) (v : BitVec 16) : (s.setSi v).cmdQ = s.cmdQ := rfl
@[simp] theorem State.setSi_rspQ (s : State) (v : BitVec 16) : (s.setSi v).rspQ = s.rspQ := rfl
@[simp] theorem State.setSi_work (s : State) (v : BitVec 16) : (s.setSi v).work = { s.work with si := v } := rfl

@[simp] theorem State.setP0_cfg (s : State) (v : BitVec 13) : (s.setP0 v).cfg = s.cfg := rfl
@[simp] theorem State.setP0_fb (s : State) (v : BitVec 13) : (s.setP0 v).fb = s.fb := rfl
@[simp] theorem State.setP0_cmdQ (s : State) (v : BitVec 13) : (s.setP0 v).cmdQ = s.cmdQ := rfl
@[simp] theorem State.setP0_rspQ (s : State) (v : BitVec 13) : (s.setP0 v).rspQ = s.rspQ := rfl
@[simp] theorem State.setP0_work (s : State) (v : BitVec 13) : (s.setP0 v).work = { s.work with p0 := v } := rfl

@[simp] theorem State.setOff_cfg (s : State) (v : BitVec 3) : (s.setOff v).cfg = s.cfg := rfl
@[simp] theorem State.setOff_fb (s : State) (v : BitVec 3) : (s.setOff v).fb = s.fb := rfl
@[simp] theorem State.setOff_cmdQ (s : State) (v : BitVec 3) : (s.setOff v).cmdQ = s.cmdQ := rfl
@[simp] theorem State.setOff_rspQ (s : State) (v : BitVec 3) : (s.setOff v).rspQ = s.rspQ := rfl
@[simp] theorem State.setOff_work (s : State) (v : BitVec 3) : (s.setOff v).work = { s.work with off := v } := rfl

@[simp] theorem State.setGi_cfg (s : State) (v : BitVec 8) : (s.setGi v).cfg = s.cfg := rfl
@[simp] theorem State.setGi_fb (s : State) (v : BitVec 8) : (s.setGi v).fb = s.fb := rfl
@[simp] theorem State.setGi_cmdQ (s : State) (v : BitVec 8) : (s.setGi v).cmdQ = s.cmdQ := rfl
@[simp] theorem State.setGi_rspQ (s : State) (v : BitVec 8) : (s.setGi v).rspQ = s.rspQ := rfl
@[simp] theorem State.setGi_work (s : State) (v : BitVec 8) : (s.setGi v).work = { s.work with gi := v } := rfl

@[simp] theorem State.setI_cfg (s : State) (v : BitVec 5) : (s.setI v).cfg = s.cfg := rfl
@[simp] theorem State.setI_fb (s : State) (v : BitVec 5) : (s.setI v).fb = s.fb := rfl
@[simp] theorem State.setI_cmdQ (s : State) (v : BitVec 5) : (s.setI v).cmdQ = s.cmdQ := rfl
@[simp] theorem State.setI_rspQ (s : State) (v : BitVec 5) : (s.setI v).rspQ = s.rspQ := rfl
@[simp] theorem State.setI_work (s : State) (v : BitVec 5) : (s.setI v).work = { s.work with i := v } := rfl

@[simp] theorem State.setJ_cfg (s : State) (v : BitVec 8) : (s.setJ v).cfg = s.cfg := rfl
@[simp] theorem State.setJ_fb (s : State) (v : BitVec 8) : (s.setJ v).fb = s.fb := rfl
@[simp] theorem State.setJ_cmdQ (s : State) (v : BitVec 8) : (s.setJ v).cmdQ = s.cmdQ := rfl
@[simp] theorem State.setJ_rspQ (s : State) (v : BitVec 8) : (s.setJ v).rspQ = s.rspQ := rfl
@[simp] theorem State.setJ_work (s : State) (v : BitVec 8) : (s.setJ v).work = { s.work with j := v } := rfl

@[simp] theorem State.setRow_cfg (s : State) (y : Coord) : (s.setRow y).cfg = s.cfg := rfl
@[simp] theorem State.setRow_fb (s : State) (y : Coord) : (s.setRow y).fb = s.fb := rfl
@[simp] theorem State.setRow_cmdQ (s : State) (y : Coord) : (s.setRow y).cmdQ = s.cmdQ := rfl
@[simp] theorem State.setRow_rspQ (s : State) (y : Coord) : (s.setRow y).rspQ = s.rspQ := rfl
@[simp] theorem State.setRow_work (s : State) (y : Coord) : (s.setRow y).work = { s.work with p0 := BitVec.ofNat 13 (y.toNat / 8), off := BitVec.ofNat 3 (y.toNat % 8) } := rfl

@[simp] theorem raise_cfg (o : BitVec 8) (st : Status) (v : BitVec 16) (c : Option Cursor) (s : State) :
    (raise o st v c s).cfg = s.cfg := rfl
@[simp] theorem raise_fb (o : BitVec 8) (st : Status) (v : BitVec 16) (c : Option Cursor) (s : State) :
    (raise o st v c s).fb = s.fb := rfl
@[simp] theorem raise_cmdQ (o : BitVec 8) (st : Status) (v : BitVec 16) (c : Option Cursor) (s : State) :
    (raise o st v c s).cmdQ = s.cmdQ := rfl
@[simp] theorem raise_rspQ (o : BitVec 8) (st : Status) (v : BitVec 16) (c : Option Cursor) (s : State) :
    (raise o st v c s).rspQ = s.rspQ ++ [failureRecord o st v c] := rfl
@[simp] theorem raise_work (o : BitVec 8) (st : Status) (v : BitVec 16) (c : Option Cursor) (s : State) :
    (raise o st v c s).work = s.work := rfl

@[simp] theorem startString_cfg (x y : Coord) (s : State) : (startString x y s).cfg = s.cfg := rfl
@[simp] theorem startString_fb (x y : Coord) (s : State) : (startString x y s).fb = s.fb := rfl
@[simp] theorem startString_cmdQ (x y : Coord) (s : State) : (startString x y s).cmdQ = s.cmdQ := rfl
@[simp] theorem startString_rspQ (x y : Coord) (s : State) : (startString x y s).rspQ = s.rspQ := rfl
@[simp] theorem startString_work (x y : Coord) (s : State) : (startString x y s).work = { s.work with curX := x, curY := y, si := 0 } := rfl

/-- The page register after `setRow` holds `y / 8` (R25, R113). -/
@[simp] theorem State.setRow_p0_toNat (s : State) (y : Coord) : (s.setRow y).work.p0.toNat = y.toNat / 8 := by
  have := y.isLt
  simp
  omega

/-- The offset register after `setRow` holds `y % 8` (R25, R113). -/
@[simp] theorem State.setRow_off_toNat (s : State) (y : Coord) : (s.setRow y).work.off.toNat = y.toNat % 8 := by
  simp

/-- Two states with equal fields are equal. -/
theorem State.ext_fields {s t : State} (h1 : s.cfg = t.cfg) (h2 : s.fb = t.fb) (h3 : s.cmdQ = t.cmdQ)
    (h4 : s.rspQ = t.rspQ) (h5 : s.work = t.work) : s = t := by
  cases s; cases t; simp_all

end Sys2Proof.Machine
end

