-- ==== Sys2Proof/Laws/Ops.lean ====
section
/-! SUPPORT. What each shared operation can do: the addresses of cells, `Put`, reading a span. -/

namespace Sys2Proof.Machine

/-- A cell the buffer has is at an address the buffer has (R41). -/
theorem cellAddr_lt {cfg : Cfg} {p c : Nat} (hp : p < cfg.pages) (hc : c < cfg.width) :
    cellAddr cfg p c < cfg.fbSize := by
  have : (p + 1) * cfg.width ≤ cfg.pages * cfg.width := Nat.mul_le_mul_right _ hp
  rw [Nat.succ_mul] at this
  unfold cellAddr Cfg.fbSize
  omega

/-- The address of a cell names its page and its column (R41). -/
theorem cellAddr_eq_iff {cfg : Cfg} {p c a : Nat} (hc : c < cfg.width) :
    a = cellAddr cfg p c ↔ a / cfg.width = p ∧ a % cfg.width = c := by
  have hw := cfg.width_pos
  unfold cellAddr
  constructor
  · rintro rfl
    refine ⟨?_, ?_⟩
    · rw [Nat.mul_comm, Nat.mul_add_div hw, Nat.div_eq_of_lt hc, Nat.add_zero]
    · rw [Nat.mul_comm, Nat.mul_add_mod, Nat.mod_eq_of_lt hc]
  · rintro ⟨rfl, rfl⟩
    rw [Nat.mul_comm]
    exact (Nat.div_add_mod a cfg.width).symm

@[simp] theorem cellAddr_div {cfg : Cfg} {p c : Nat} (hc : c < cfg.width) : cellAddr cfg p c / cfg.width = p :=
  ((cellAddr_eq_iff hc).1 rfl).1

@[simp] theorem cellAddr_mod {cfg : Cfg} {p c : Nat} (hc : c < cfg.width) : cellAddr cfg p c % cfg.width = c :=
  ((cellAddr_eq_iff hc).1 rfl).2

theorem div_lt_pages_iff {cfg : Cfg} {a : Nat} : a / cfg.width < cfg.pages ↔ a < cfg.fbSize := by
  rw [Nat.div_lt_iff_lt_mul cfg.width_pos]
  rfl

theorem fbRead_ok {s : State} {a : Nat} (h : a < s.cfg.fbSize) : fbRead s a = .ok (s.fb.read a) := if_pos h

theorem fbWrite_ok {s : State} {a : Nat} (h : a < s.cfg.fbSize) (v : Byte) :
    fbWrite s a v = .ok (s.setFb (s.fb.write a v)) := if_pos h

/-- What `Put` leaves in the memory: the write where the buffer has the cell, else nothing (R46). -/
def putMem (cfg : Cfg) (p c : Nat) (v : Byte) (m : Memory) : Memory :=
  if p < cfg.pages ∧ c < cfg.width then m.write (cellAddr cfg p c) v else m

/-- `Put` never makes an access the buffer has no address for (R46). -/
theorem put_eq (p c : Nat) (v : Byte) (s : State) : put p c v s = .ok (s.setFb (putMem s.cfg p c v s.fb)) := by
  unfold put putMem
  split
  · next h => exact fbWrite_ok (cellAddr_lt h.1 h.2) v
  · rfl

theorem putMem_wf {m : Memory} (hm : m.wf) (cfg : Cfg) (p c : Nat) (v : Byte) : (putMem cfg p c v m).wf := by
  unfold putMem
  split
  · exact Memory.write_wf hm _ _
  · exact hm

theorem putMem_within {cfg : Cfg} {m : Memory} (hm : m.within cfg.fbSize) (p c : Nat) (v : Byte) :
    (putMem cfg p c v m).within cfg.fbSize := by
  unfold putMem
  split
  · next h => exact Memory.write_within hm (cellAddr_lt h.1 h.2) v
  · exact hm

/-- Reading any address after a `Put` (R46). -/
theorem putMem_read {m : Memory} (hm : m.wf) (cfg : Cfg) (p c : Nat) (v : Byte) (a : Nat) :
    (putMem cfg p c v m).read a
      = if a / cfg.width = p ∧ a % cfg.width = c ∧ a / cfg.width < cfg.pages then v else m.read a := by
  have hmod := Nat.mod_lt a cfg.width_pos
  unfold putMem
  split
  · next h =>
    rw [Memory.read_write hm]
    by_cases hp : a / cfg.width = p ∧ a % cfg.width = c
    · rw [if_pos ((cellAddr_eq_iff h.2).2 hp), if_pos ⟨hp.1, hp.2, by omega⟩]
    · rw [if_neg fun hq => hp ((cellAddr_eq_iff h.2).1 hq), if_neg fun hq => hp ⟨hq.1, hq.2.1⟩]
  · next h =>
    rw [if_neg]
    rintro ⟨h1, h2, h3⟩
    exact h ⟨by omega, by omega⟩

/-- A span whose bytes can all be read. -/
theorem readSpan_ok {read : Nat → Except Fault Byte} {f : Nat → Byte} {n : Nat}
    (h : ∀ k, k < n → read k = .ok (f k)) (acc : List Byte) :
    readSpan read n acc = .ok ((List.range n).map f ++ acc) := by
  induction n generalizing acc with
  | zero => rfl
  | succ n ih =>
    simp only [readSpan, h n (by omega)]
    rw [ih fun k hk => h k (by omega), List.range_succ]
    simp

@[simp] theorem finish_ok (s : State) : finish (.ok s) = .next s := rfl
@[simp] theorem finish_error (f : Fault) : finish (.error f) = .fault f := rfl

theorem withFont_none {op : Op} {font : FontSel} {cursor : Option Cursor} {s : State}
    {body : Font → Host.Outcome State Fault Refusal} (h : resolveFont s.cfg font = none) :
    withFont op font cursor s body = .next (raise op.code .unconfiguredFont 0 cursor s) := by
  simp [withFont, h]

theorem withFont_some {op : Op} {font : FontSel} {cursor : Option Cursor} {s : State} {F : Font}
    {body : Font → Host.Outcome State Fault Refusal} (h : resolveFont s.cfg font = some F) :
    withFont op font cursor s body = body F := by
  simp [withFont, h]

/-- A command of one character whose font is not configured (R91). -/
theorem withGlyph_unconfigured {op : Op} {font : FontSel} {ch : CharCode} {s : State}
    {body : Font → Glyph → State → Host.Outcome State Fault Refusal} (h : resolveFont s.cfg font = none) :
    withGlyph op font ch s body = .next (raise op.code .unconfiguredFont 0 none s) :=
  withFont_none h

/-- A command of one character that has no glyph (R92). -/
theorem withGlyph_notRepresentable {op : Op} {font : FontSel} {ch : CharCode} {s : State} {F : Font}
    {body : Font → Glyph → State → Host.Outcome State Fault Refusal} (h : resolveFont s.cfg font = some F)
    (hg : glyphIndex F ch = none) :
    withGlyph op font ch s body = .next (raise op.code .notRepresentable 0 none s) := by
  simp [withGlyph, withFont_some h, lookup_eq_none hg]

/-- A command of one character that has a glyph (R92, R93). -/
theorem withGlyph_some {op : Op} {font : FontSel} {ch : CharCode} {s : State} {F : Font} {t : Table} {k : Nat}
    {body : Font → Glyph → State → Host.Outcome State Fault Refusal} (h : resolveFont s.cfg font = some F)
    (hg : glyphIndex F ch = some (t, k)) :
    withGlyph op font ch s body
      = body F ⟨tableBytes F t, k * F.gsize⟩ (s.setGi (BitVec.ofNat 8 k)) := by
  simp [withGlyph, withFont_some h, lookup_eq_some (resolveFont_facts h) hg]

/-- A font and a character: unconfigured, not representable, or a glyph. -/
theorem font_cases (cfg : Cfg) (font : FontSel) (ch : CharCode) :
    resolveFont cfg font = none ∨ (∃ F, resolveFont cfg font = some F ∧ glyphIndex F ch = none)
      ∨ ∃ F t k, resolveFont cfg font = some F ∧ glyphIndex F ch = some (t, k) := by
  cases h : resolveFont cfg font with
  | none => exact .inl rfl
  | some F =>
    cases hg : glyphIndex F ch with
    | none => exact .inr (.inl ⟨F, rfl, hg⟩)
    | some g => exact .inr (.inr ⟨F, g.1, g.2, rfl, hg⟩)

end Sys2Proof.Machine
end

