-- ==== Sys2Proof/Laws/Compositor.lean ====
section
/-! SUPPORT. What a blit can do: it never makes an access outside the two spaces, it leaves everything but the frame
buffer and the registers `P0`, `OFF`, `I`, `J` alone, and it leaves in each cell what `stamp` says. -/

namespace Sys2Proof.Machine

@[simp] theorem lowHalf_zero (b : Byte) : lowHalf 0 b = b := by simp [lowHalf]

/-- What the writes of one glyph byte leave in the memory (R131). -/
def byteMem (cfg : Cfg) (page column off : Nat) (b : Byte) (m : Memory) : Memory :=
  if off = 0 then putMem cfg page column b m
  else putMem cfg (page + 1) column (highHalf off b) (putMem cfg page column (lowHalf off b) m)

/-- What the first `n` columns of one glyph row, with bytes `row`, leave in the memory (R131). -/
def columnsMem (cfg : Cfg) (row : Nat → Byte) (page x off : Nat) : Nat → Memory → Memory
  | 0, m => m
  | n + 1, m => byteMem cfg page (x + n) off (row n) (columnsMem cfg row page x off n m)

/-- What the first `n` rows of a glyph leave in the memory (R131). -/
def rowsMem (cfg : Cfg) (G : Nat → Nat → Byte) (cols p0 x off : Nat) : Nat → Memory → Memory
  | 0, m => m
  | n + 1, m => columnsMem cfg (G n) (p0 + n) x off cols (rowsMem cfg G cols p0 x off n m)

/-- What a whole blit leaves in the memory. -/
def blitMem (cfg : Cfg) (rows cols : Nat) (G : Nat → Nat → Byte) (x y : Nat) (m : Memory) : Memory :=
  rowsMem cfg G cols (y / 8) x (y % 8) rows m

theorem putGlyphByte_eq (b : Byte) (x : Nat) (s : State) :
    putGlyphByte b x s = .ok (s.setFb (byteMem s.cfg (s.work.p0.toNat + s.work.i.toNat) (x + s.work.j.toNat)
      s.work.off.toNat b s.fb)) := by
  unfold putGlyphByte byteMem
  split
  · simp only [*, if_true]; exact put_eq _ _ _ _
  · simp only [*, if_false, put_eq, Except.bind]; rfl

/-- A loop register after its loop ran over `0 .. n - 1`. -/
def lastOf (w n : Nat) (old : BitVec w) : BitVec w := if n = 0 then old else BitVec.ofNat w (n - 1)

theorem blitColumns_eq {F : Font} {g : Glyph} {row : Nat → Byte} (x n : Nat) (s : State) (hn : n ≤ 256)
    (hread : ∀ j, j < n → g.read (s.work.i.toNat * F.cols + j) = .ok (row j)) :
    blitColumns F g x n s = .ok ((s.setFb
      (columnsMem s.cfg row (s.work.p0.toNat + s.work.i.toNat) x s.work.off.toNat n s.fb)).setJ
        (lastOf 8 n s.work.j)) := by
  induction n with
  | zero => rfl
  | succ n ih =>
    have hj : (BitVec.ofNat 8 n).toNat = n := by simp; omega
    rw [blitColumns, ih (by omega) fun j hj => hread j (by omega)]
    simp [Except.bind, blitCell, hj, hread n (by omega), putGlyphByte_eq, columnsMem, lastOf, State.setJ,
      State.setFb, State.setWork, -BitVec.toNat_ofNat]

theorem blitRows_eq {F : Font} {g : Glyph} {G : Nat → Nat → Byte} (x n : Nat) (s : State) (hn : n ≤ 32)
    (hcols : F.cols ≤ 256)
    (hread : ∀ i j, i < n → j < F.cols → g.read (i * F.cols + j) = .ok (G i j)) :
    ∃ i j, blitRows F g x n s = .ok (((s.setFb
      (rowsMem s.cfg G F.cols s.work.p0.toNat x s.work.off.toNat n s.fb)).setI i).setJ j)
      ∧ i = lastOf 5 n s.work.i ∧ (j = if n = 0 then s.work.j else lastOf 8 F.cols s.work.j) := by
  induction n with
  | zero => exact ⟨_, _, rfl, rfl, rfl⟩
  | succ n ih =>
    obtain ⟨i, j, h, hi, hj⟩ := ih (by omega) fun i j hi hj => hread i j (by omega) hj
    have hI : (BitVec.ofNat 5 n).toNat = n := by simp; omega
    refine ⟨BitVec.ofNat 5 n, lastOf 8 F.cols j, ?_, by simp [lastOf], ?_⟩
    · rw [blitRows, h]
      simp only [Except.bind]
      rw [blitColumns_eq (row := G n) x F.cols _ hcols (by
        intro c hc
        simp only [State.setI_work, hI]
        exact hread n c (by omega) hc)]
      simp [hI, rowsMem, State.setJ, State.setI, State.setFb, State.setWork, -BitVec.toNat_ofNat]
    · rw [hj]
      by_cases hc : F.cols = 0 <;> by_cases h0 : n = 0 <;> simp [lastOf, hc, h0]

/-- The registers a blit leaves (R25, R131). -/
def blitWork (F : Font) (y : Coord) (w : Working) : Working :=
  { w with
    p0 := BitVec.ofNat 13 (y.toNat / 8)
    off := BitVec.ofNat 3 (y.toNat % 8)
    i := BitVec.ofNat 5 (F.rows - 1)
    j := BitVec.ofNat 8 (F.cols - 1) }

/-- A blit of a glyph that lies inside its table always completes (R131). -/
theorem blit_eq {fsel : FontSel} {F : Font} (hF : F.Facts fsel) {ch : CharCode} {t : Table} {k : Nat}
    (hg : glyphIndex F ch = some (t, k)) (x y : Coord) (s : State) :
    blit F ⟨tableBytes F t, k * F.gsize⟩ x y s = .ok ((s.setFb
      (blitMem s.cfg F.rows F.cols (glyphCell F t k) x.toNat y.toNat s.fb)).setWork (blitWork F y s.work)) := by
  have hb := (glyphIndex_bounds hF hg).2
  have hrow := hF.rows_pos
  have hcol := hF.cols_pos
  obtain ⟨i, j, h, hi, hj⟩ := blitRows_eq (F := F) (g := ⟨tableBytes F t, k * F.gsize⟩) (G := glyphCell F t k)
    x.toNat F.rows (s.setRow y) (by have := hF.rows_le; omega) (by have := hF.cols_le; omega) (by
      intro i j hi hj
      refine Glyph.read_ok ?_
      have : (i + 1) * F.cols ≤ F.rows * F.cols := Nat.mul_le_mul_right _ hi
      rw [Nat.succ_mul] at this
      have hgs : F.gsize = F.rows * F.cols := rfl
      simp only
      omega)
  rw [blit, h, hi, hj]
  simp only [State.setRow_p0_toNat, State.setRow_off_toNat]
  simp [lastOf, blitWork, blitMem, State.setJ, State.setI, State.setFb, State.setWork,
    show F.rows ≠ 0 by omega, show F.cols ≠ 0 by omega, State.setRow, State.setP0, State.setOff]

theorem byteMem_wf {m : Memory} (hm : m.wf) (cfg : Cfg) (page column off : Nat) (b : Byte) :
    (byteMem cfg page column off b m).wf := by
  unfold byteMem
  split
  · exact putMem_wf hm _ _ _ _
  · exact putMem_wf (putMem_wf hm _ _ _ _) _ _ _ _

theorem byteMem_within {cfg : Cfg} {m : Memory} (hm : m.within cfg.fbSize) (page column off : Nat) (b : Byte) :
    (byteMem cfg page column off b m).within cfg.fbSize := by
  unfold byteMem
  split
  · exact putMem_within hm _ _ _
  · exact putMem_within (putMem_within hm _ _ _) _ _ _

theorem columnsMem_wf {m : Memory} (hm : m.wf) (cfg : Cfg) (row : Nat → Byte) (page x off n : Nat) :
    (columnsMem cfg row page x off n m).wf := by
  induction n with
  | zero => exact hm
  | succ n ih => exact byteMem_wf ih _ _ _ _ _

theorem columnsMem_within {cfg : Cfg} {m : Memory} (hm : m.within cfg.fbSize) (row : Nat → Byte)
    (page x off n : Nat) : (columnsMem cfg row page x off n m).within cfg.fbSize := by
  induction n with
  | zero => exact hm
  | succ n ih => exact byteMem_within ih _ _ _ _

theorem rowsMem_wf {m : Memory} (hm : m.wf) (cfg : Cfg) (G : Nat → Nat → Byte) (cols p0 x off n : Nat) :
    (rowsMem cfg G cols p0 x off n m).wf := by
  induction n with
  | zero => exact hm
  | succ n ih => exact columnsMem_wf ih _ _ _ _ _ _

theorem rowsMem_within {cfg : Cfg} {m : Memory} (hm : m.within cfg.fbSize) (G : Nat → Nat → Byte)
    (cols p0 x off n : Nat) : (rowsMem cfg G cols p0 x off n m).within cfg.fbSize := by
  induction n with
  | zero => exact hm
  | succ n ih => exact columnsMem_within ih _ _ _ _ _

/-- A blit keeps the canonical form. -/
theorem blitMem_wf {m : Memory} (hm : m.wf) (cfg : Cfg) (rows cols : Nat) (G : Nat → Nat → Byte) (x y : Nat) :
    (blitMem cfg rows cols G x y m).wf :=
  rowsMem_wf hm _ _ _ _ _ _ _

/-- A blit stores only bytes the buffer has. -/
theorem blitMem_within {cfg : Cfg} {m : Memory} (hm : m.within cfg.fbSize) (rows cols : Nat)
    (G : Nat → Nat → Byte) (x y : Nat) : (blitMem cfg rows cols G x y m).within cfg.fbSize :=
  rowsMem_within hm _ _ _ _ _ _

/-- What one glyph row leaves in a cell: its low half on its own page, its high half on the next (R134). -/
def rowStamp (row : Nat → Byte) (page x off n p c : Nat) : Option Byte :=
  if x ≤ c ∧ c < x + n then
    if p = page then some (lowHalf off (row (c - x)))
    else if off ≠ 0 ∧ p = page + 1 then some (highHalf off (row (c - x)))
    else none
  else none

theorem columnsMem_read {m : Memory} (hm : m.wf) (cfg : Cfg) (row : Nat → Byte) (page x off n a : Nat) :
    (columnsMem cfg row page x off n m).read a
      = if a / cfg.width < cfg.pages then (rowStamp row page x off n (a / cfg.width) (a % cfg.width)).getD (m.read a)
        else m.read a := by
  induction n with
  | zero => simp [columnsMem, rowStamp, show ¬(x ≤ a % cfg.width ∧ a % cfg.width < x) by omega]
  | succ n ih =>
    have hwf := columnsMem_wf hm cfg row page x off n
    simp only [columnsMem, byteMem]
    generalize hp : a / cfg.width = p at *
    generalize hc : a % cfg.width = c at *
    split
    · next h0 =>
      subst h0
      rw [putMem_read hwf, ih, hp, hc]
      by_cases hin : p < cfg.pages
      · by_cases hcol : c = x + n
        · subst hcol
          by_cases hpg : p = page <;> simp [rowStamp, hin, hpg]
        · simp only [hin, hcol, and_false, false_and, if_false, if_true, rowStamp,
            show (x ≤ c ∧ c < x + (n + 1)) ↔ (x ≤ c ∧ c < x + n) by omega]
      · simp [hin]
    · next h0 =>
      rw [putMem_read (putMem_wf hwf _ _ _ _), putMem_read hwf, ih, hp, hc]
      by_cases hin : p < cfg.pages
      · by_cases hcol : c = x + n
        · subst hcol
          by_cases hpg : p = page
          · subst hpg; simp [rowStamp, hin]
          · by_cases hpg' : p = page + 1 <;> simp [rowStamp, hin, hpg, hpg', h0]
        · simp only [hin, hcol, and_false, false_and, if_false, if_true, rowStamp,
            show (x ≤ c ∧ c < x + (n + 1)) ↔ (x ≤ c ∧ c < x + n) by omega]
      · simp [hin]

/-- Reading any address after a blit (R133, R136, R137). -/
theorem blitMem_read {m : Memory} (hm : m.wf) (cfg : Cfg) (rows cols : Nat) (G : Nat → Nat → Byte) (x y a : Nat) :
    (blitMem cfg rows cols G x y m).read a
      = if a / cfg.width < cfg.pages then (stamp rows cols G x y (a / cfg.width) (a % cfg.width)).getD (m.read a)
        else m.read a := by
  unfold blitMem
  induction rows with
  | zero => simp [rowsMem, stamp]
  | succ n ih =>
    rw [rowsMem, columnsMem_read (rowsMem_wf hm _ _ _ _ _ _ _), ih]
    generalize a / cfg.width = p at *
    generalize a % cfg.width = c at *
    by_cases hin : p < cfg.pages
    · simp only [hin, if_true, rowStamp, stamp]
      by_cases hcol : x ≤ c ∧ c < x + cols
      · by_cases hpg : p < y / 8
        · simp [hcol, show ¬ y / 8 ≤ p by omega, show ¬ p = y / 8 + n by omega, show ¬ p = y / 8 + n + 1 by omega]
        · obtain ⟨d, rfl⟩ : ∃ d, p = y / 8 + d := ⟨p - y / 8, by omega⟩
          rcases Nat.lt_trichotomy d n with h | h | h
          · simp [hcol, h, show d < n + 1 by omega, show ¬ d = n by omega, show ¬ d = n + 1 by omega, Nat.add_assoc]
          · subst h; simp [hcol]
          · by_cases h1 : d = n + 1
            · subst h1
              by_cases h0 : y % 8 = 0 <;> simp [hcol, h0, Nat.add_assoc]
            · simp [hcol, h1, show ¬ d < n by omega, show ¬ d < n + 1 by omega, show ¬ d = n by omega, Nat.add_assoc]
      · have : ∀ q : Prop, ¬(x ≤ c ∧ c < x + cols ∧ q) := fun q hq => hcol ⟨hq.1, hq.2.1⟩
        simp [hcol, this]
    · simp [hin]

end Sys2Proof.Machine
end

