-- ==== Sys2Proof/Laws/Decode.lean ====
section
/-! SUPPORT. The words of a command by their fields: a header and a position word are their fields, and which row a
header selects is said of its fields (R62, R63, R67). -/

namespace Sys2Proof

theorem append_inj {v w : Nat} {a c : BitVec v} {b d : BitVec w} : a ++ b = c ++ d ↔ a = c ∧ b = d := by
  constructor
  · intro h
    constructor
    · have := congrArg (BitVec.extractLsb' w v) h
      rwa [BitVec.extractLsb'_append_eq_left, BitVec.extractLsb'_append_eq_left] at this
    · have := congrArg (BitVec.extractLsb' 0 w) h
      rwa [BitVec.extractLsb'_append_eq_right, BitVec.extractLsb'_append_eq_right] at this
  · rintro ⟨rfl, rfl⟩; rfl

/-- Bit `i` of a header word, by field (R62). -/
theorem headerWord_getLsbD (o : BitVec 8) (f : FontSel) (a : BitVec 16) (i : Nat) :
    (headerWord o f a).getLsbD i
      = if i < 16 then a.getLsbD i else if i < 24 then f.getLsbD (i - 16) else o.getLsbD (i - 24) := by
  show (o ++ f ++ a).getLsbD i = _
  rw [BitVec.getLsbD_append, BitVec.getLsbD_append]
  by_cases h : i < 16
  · simp [h]
  · by_cases h2 : i < 24
    · simp [h, h2, show i - 16 < 8 by omega]
    · simp [h, h2, show ¬ i - 16 < 8 by omega, show i - 16 - 8 = i - 24 by omega]

@[simp] theorem headerOpc_headerWord (o : BitVec 8) (f : FontSel) (a : BitVec 16) :
    headerOpc (headerWord o f a) = o := by
  refine BitVec.eq_of_getLsbD_eq fun i hi => ?_
  simp [headerOpc, headerWord_getLsbD, hi, show ¬ 24 + i < 16 by omega]

@[simp] theorem headerFsel_headerWord (o : BitVec 8) (f : FontSel) (a : BitVec 16) :
    headerFsel (headerWord o f a) = f := by
  refine BitVec.eq_of_getLsbD_eq fun i hi => ?_
  simp [headerFsel, headerWord_getLsbD, hi, show 16 + i < 24 by omega]

@[simp] theorem headerArg_headerWord (o : BitVec 8) (f : FontSel) (a : BitVec 16) :
    headerArg (headerWord o f a) = a := by
  refine BitVec.eq_of_getLsbD_eq fun i hi => ?_
  simp [headerArg, headerWord_getLsbD, hi]

/-- A header is its three fields (R62). -/
theorem headerWord_fields (h : Word) : headerWord (headerOpc h) (headerFsel h) (headerArg h) = h := by
  refine BitVec.eq_of_getLsbD_eq fun i hi => ?_
  rw [headerWord_getLsbD]
  by_cases h1 : i < 16
  · simp [headerArg, h1]
  · by_cases h2 : i < 24
    · simp [headerFsel, h1, h2, show i - 16 < 8 by omega, show 16 + (i - 16) = i by omega]
    · simp [headerOpc, h1, h2, show i - 24 < 8 by omega, show 24 + (i - 24) = i by omega]

@[simp] theorem posX_positionWord (x y : Coord) : posX (positionWord x y) = x :=
  BitVec.extractLsb'_append_eq_right

@[simp] theorem posY_positionWord (x y : Coord) : posY (positionWord x y) = y :=
  BitVec.extractLsb'_append_eq_left

/-- A position word is its two fields (R63). -/
theorem positionWord_fields (xy : Word) : positionWord (posX xy) (posY xy) = xy := by
  refine BitVec.eq_of_getLsbD_eq fun i hi => ?_
  show ((posY xy) ++ (posX xy)).getLsbD i = _
  rw [BitVec.getLsbD_append]
  by_cases h1 : i < 16
  · simp [posX, h1]
  · simp [posY, h1, show i - 16 < 16 by omega, show 16 + (i - 16) = i by omega]

theorem headerWord_inj {o o' : BitVec 8} {f f' : FontSel} {a a' : BitVec 16} :
    headerWord o f a = headerWord o' f' a' ↔ o = o' ∧ f = f' ∧ a = a' := by
  constructor
  · intro h
    exact ⟨by simpa using congrArg headerOpc h, by simpa using congrArg headerFsel h,
      by simpa using congrArg headerArg h⟩
  · rintro ⟨rfl, rfl, rfl⟩; rfl

theorem headerWord_and (o o' : BitVec 8) (f f' : FontSel) (a a' : BitVec 16) :
    headerWord o f a &&& headerWord o' f' a' = headerWord (o &&& o') (f &&& f') (a &&& a') := by
  refine BitVec.eq_of_getLsbD_eq fun i _ => ?_
  simp only [BitVec.getLsbD_and, headerWord_getLsbD]
  split <;> [rfl; (split <;> rfl)]

/-- A masked header equals a pattern exactly when each masked field equals the pattern's field (R67). -/
theorem masked_eq_iff (h : Word) (mo po : BitVec 8) (mf pf : FontSel) (ma pa : BitVec 16) :
    h &&& headerWord mo mf ma = headerWord po pf pa
      ↔ headerOpc h &&& mo = po ∧ headerFsel h &&& mf = pf ∧ headerArg h &&& ma = pa := by
  rw [← headerWord_inj, ← headerWord_and, headerWord_fields]

theorem and_all8 (x : BitVec 8) : x &&& 0xFF = x := BitVec.and_allOnes
theorem and_all16 (x : BitVec 16) : x &&& 0xFFFF = x := BitVec.and_allOnes

/-- Which headers select the rows whose `ARG` must be 0 and whose `FSEL` is the font (R67). -/
theorem selects_font (op : Op) (fmt : Format) (o : BitVec 8) (h : Word) :
    (OpcodeRow.mk op fmt (headerWord o 0 0) (headerWord 0xFF 0 0xFFFF)).selects h = true
      ↔ headerOpc h = o ∧ headerArg h = 0 := by
  simp only [OpcodeRow.selects, beq_iff_eq, masked_eq_iff, and_all8, and_all16]
  simp

/-- Which headers select the rows whose `FSEL` and `ARG` must be 0 (R67). -/
theorem selects_exact (op : Op) (fmt : Format) (o : BitVec 8) (h : Word) :
    (OpcodeRow.mk op fmt (headerWord o 0 0) (headerWord 0xFF 0xFF 0xFFFF)).selects h = true
      ↔ headerOpc h = o ∧ headerFsel h = 0 ∧ headerArg h = 0 := by
  simp only [OpcodeRow.selects, beq_iff_eq, masked_eq_iff, and_all8, and_all16]

/-- Which headers select the row of `SET_PIXEL` (R67). -/
theorem selects_pixel (op : Op) (fmt : Format) (o : BitVec 8) (h : Word) :
    (OpcodeRow.mk op fmt (headerWord o 0 0) (headerWord 0xFF 0xFF 0xFFFE)).selects h = true
      ↔ headerOpc h = o ∧ headerFsel h = 0 ∧ headerArg h &&& 0xFFFE = 0 := by
  simp only [OpcodeRow.selects, beq_iff_eq, masked_eq_iff, and_all8]

/-- Which headers select the row of `DRAW_STRING` (R67). -/
theorem selects_string (op : Op) (fmt : Format) (o : BitVec 8) (h : Word) :
    (OpcodeRow.mk op fmt (headerWord o 0 0) (headerWord 0xFF 0 0)).selects h = true ↔ headerOpc h = o := by
  simp only [OpcodeRow.selects, beq_iff_eq, masked_eq_iff, and_all8]
  simp

/-- The opcode map with its patterns and masks written by field. -/
theorem opcodeTable_fields : opcodeTable =
    [ ⟨.glyphFor, .c, headerWord 0x01 0 0, headerWord 0xFF 0 0xFFFF⟩,
      ⟨.glyphWidth, .c, headerWord 0x02 0 0, headerWord 0xFF 0 0xFFFF⟩,
      ⟨.fontHeight, .z, headerWord 0x03 0 0, headerWord 0xFF 0 0xFFFF⟩,
      ⟨.clear, .z, headerWord 0x10 0 0, headerWord 0xFF 0xFF 0xFFFF⟩,
      ⟨.setPixel, .p, headerWord 0x11 0 0, headerWord 0xFF 0xFF 0xFFFE⟩,
      ⟨.drawGlyph, .g, headerWord 0x12 0 0, headerWord 0xFF 0 0xFFFF⟩,
      ⟨.drawString, .s, headerWord 0x13 0 0, headerWord 0xFF 0 0⟩,
      ⟨.snapshot, .z, headerWord 0x14 0 0, headerWord 0xFF 0xFF 0xFFFF⟩ ] := by
  decide

/-- The fields of a header that selects a given operation's row (R62, R67). -/
def Op.fieldsOk (op : Op) (h : Word) : Prop :=
  match op with
  | .glyphFor => headerOpc h = 0x01 ∧ headerArg h = 0
  | .glyphWidth => headerOpc h = 0x02 ∧ headerArg h = 0
  | .fontHeight => headerOpc h = 0x03 ∧ headerArg h = 0
  | .clear => headerOpc h = 0x10 ∧ headerFsel h = 0 ∧ headerArg h = 0
  | .setPixel => headerOpc h = 0x11 ∧ headerFsel h = 0 ∧ headerArg h &&& 0xFFFE = 0
  | .drawGlyph => headerOpc h = 0x12 ∧ headerArg h = 0
  | .drawString => headerOpc h = 0x13
  | .snapshot => headerOpc h = 0x14 ∧ headerFsel h = 0 ∧ headerArg h = 0

theorem Op.fieldsOk_code {op : Op} {h : Word} (hf : op.fieldsOk h) : headerOpc h = op.code := by
  cases op <;> simp only [Op.fieldsOk] at hf <;> simp [Op.code, hf]

/-- A row of the map selects exactly the headers whose fields are its own (R67). -/
theorem selects_iff_fieldsOk {r : OpcodeRow} (hr : r ∈ opcodeTable) (h : Word) :
    r.selects h = true ↔ r.op.fieldsOk h := by
  rw [opcodeTable_fields] at hr
  simp only [List.mem_cons, List.not_mem_nil, or_false] at hr
  rcases hr with rfl | rfl | rfl | rfl | rfl | rfl | rfl | rfl
  · exact selects_font _ _ _ _
  · exact selects_font _ _ _ _
  · exact selects_font _ _ _ _
  · exact selects_exact _ _ _ _
  · exact selects_pixel _ _ _ _
  · exact selects_font _ _ _ _
  · exact selects_string _ _ _ _
  · exact selects_exact _ _ _ _

theorem Op.code_injective {a b : Op} (h : a.code = b.code) : a = b := by
  cases a <;> cases b <;> first | rfl | (exact absurd h (by decide))

/-- The format of each row of the map. -/
def Op.format : Op → Format
  | .glyphFor => .c
  | .glyphWidth => .c
  | .fontHeight => .z
  | .clear => .z
  | .setPixel => .p
  | .drawGlyph => .g
  | .drawString => .s
  | .snapshot => .z

theorem selectRow_selects {h : Word} {r : OpcodeRow} (hs : selectRow h = some r) : r.selects h = true := by
  unfold selectRow at hs
  simpa using List.find?_some hs

/-- The row the map selects: the one whose fields the header has (R67). -/
theorem selectRow_of_fieldsOk {op : Op} {h : Word} (hf : op.fieldsOk h) :
    ∃ r, selectRow h = some r ∧ r.op = op ∧ r.format = op.format := by
  have hex : ∃ r ∈ opcodeTable, r.op = op := by cases op <;> decide
  obtain ⟨r0, hr0, hop0⟩ := hex
  have hsel : r0.selects h = true := (selects_iff_fieldsOk hr0 h).2 (hop0 ▸ hf)
  cases hs : selectRow h with
  | none => exact absurd hsel (by simpa using List.find?_eq_none.1 hs r0 hr0)
  | some r =>
    have hmem := List.mem_of_find?_eq_some hs
    have hr := (selects_iff_fieldsOk hmem h).1 (selectRow_selects hs)
    have hop : r.op = op := Op.code_injective (by rw [← Op.fieldsOk_code hr, Op.fieldsOk_code hf])
    refine ⟨r, rfl, hop, ?_⟩
    subst hop
    have : ∀ r ∈ opcodeTable, r.format = r.op.format := by decide
    exact this r hmem

/-- A selected row's fields are those of the header (R67). -/
theorem fieldsOk_of_selectRow {h : Word} {r : OpcodeRow} (hs : selectRow h = some r) :
    r.op.fieldsOk h ∧ r.format = r.op.format := by
  have hmem := List.mem_of_find?_eq_some hs
  refine ⟨(selects_iff_fieldsOk hmem h).1 (selectRow_selects hs), ?_⟩
  have : ∀ r ∈ opcodeTable, r.format = r.op.format := by decide
  exact this r hmem

/-- The queue holds `n` words. -/
theorem hasWords_iff (n : Nat) (q : List Word) : hasWords n q = true ↔ n ≤ q.length := by
  induction n generalizing q with
  | zero => simp [hasWords]
  | succ n ih => cases q <;> simp [hasWords, ih]

end Sys2Proof
end

