-- ==== Sys2Proof/Laws/PerInstr.lean ====
section
/-! SUPPORT. Statements made of every command, one lemma per constructor. -/

namespace Sys2Proof.Laws

/-- How many words a command takes (R65). -/
def EncodeLength.Statement (i : Instr) : Prop :=
  (encode i).length = match i with
    | .glyphFor _ _ => 2
    | .glyphWidth _ _ => 2
    | .fontHeight _ => 1
    | .clear => 1
    | .setPixel _ _ _ => 2
    | .drawGlyph _ _ _ _ => 3
    | .drawString _ _ _ text => 2 + text.length
    | .snapshot => 1

theorem EncodeLength.glyphFor (font : FontSel) (ch : CharCode) : EncodeLength.Statement (.glyphFor font ch) := rfl
theorem EncodeLength.glyphWidth (font : FontSel) (ch : CharCode) :
    EncodeLength.Statement (.glyphWidth font ch) := rfl
theorem EncodeLength.fontHeight (font : FontSel) : EncodeLength.Statement (.fontHeight font) := rfl
theorem EncodeLength.clear : EncodeLength.Statement .clear := rfl
theorem EncodeLength.setPixel (x y : Coord) (on : Bool) : EncodeLength.Statement (.setPixel x y on) := rfl
theorem EncodeLength.drawGlyph (x y : Coord) (font : FontSel) (ch : CharCode) :
    EncodeLength.Statement (.drawGlyph x y font ch) := rfl
theorem EncodeLength.drawString (x y : Coord) (font : FontSel) (text : List CharCode) :
    EncodeLength.Statement (.drawString x y font text) := by
  show (encode (.drawString x y font text)).length = 2 + text.length
  simp [encode]
  omega
theorem EncodeLength.snapshot : EncodeLength.Statement .snapshot := rfl

end Sys2Proof.Laws
end

