-- ==== Sys2Proof/Laws/Strings.lean ====
section
/-! SUPPORT. What the loop of `DRAW_STRING` can do, character by character: it always completes, it leaves everything
but the frame buffer and the working registers alone, and of the registers it reads only `CURX`, `CURY` and `SI`. -/

namespace Sys2Proof.Machine

/-- The state after the loop's body drew glyph `k` of table `t` (R140). -/
def afterChar (F : Font) (t : Table) (k : Nat) (s : State) : State :=
  advance F (((s.setGi (BitVec.ofNat 8 k)).setFb
    (blitMem s.cfg F.rows F.cols (glyphCell F t k) s.work.curX.toNat s.work.curY.toNat s.fb)).setWork
      (blitWork F s.work.curY (s.setGi (BitVec.ofNat 8 k)).work))

@[simp] theorem wrapCursor_cfg (F : Font) (s : State) : (wrapCursor F s).cfg = s.cfg := by
  unfold wrapCursor; split <;> rfl
@[simp] theorem advance_cfg (F : Font) (s : State) : (advance F s).cfg = s.cfg := by
  show (wrapCursor F (advanceColumn F s)).cfg = s.cfg
  rw [wrapCursor_cfg]; rfl
@[simp] theorem wrapCursor_fb (F : Font) (s : State) : (wrapCursor F s).fb = s.fb := by
  unfold wrapCursor; split <;> rfl
@[simp] theorem advance_fb (F : Font) (s : State) : (advance F s).fb = s.fb := by
  show (wrapCursor F (advanceColumn F s)).fb = s.fb
  rw [wrapCursor_fb]; rfl
@[simp] theorem wrapCursor_cmdQ (F : Font) (s : State) : (wrapCursor F s).cmdQ = s.cmdQ := by
  unfold wrapCursor; split <;> rfl
@[simp] theorem advance_cmdQ (F : Font) (s : State) : (advance F s).cmdQ = s.cmdQ := by
  show (wrapCursor F (advanceColumn F s)).cmdQ = s.cmdQ
  rw [wrapCursor_cmdQ]; rfl
@[simp] theorem wrapCursor_rspQ (F : Font) (s : State) : (wrapCursor F s).rspQ = s.rspQ := by
  unfold wrapCursor; split <;> rfl
@[simp] theorem advance_rspQ (F : Font) (s : State) : (advance F s).rspQ = s.rspQ := by
  show (wrapCursor F (advanceColumn F s)).rspQ = s.rspQ
  rw [wrapCursor_rspQ]; rfl
@[simp] theorem wrapCursor_si (F : Font) (s : State) : (wrapCursor F s).work.si = s.work.si := by
  unfold wrapCursor; split <;> rfl
@[simp] theorem advance_si (F : Font) (s : State) : (advance F s).work.si = s.work.si + 1 := by
  show (wrapCursor F (advanceColumn F s)).work.si + 1 = _
  rw [wrapCursor_si]; rfl

@[simp] theorem sat16_toNat (v : Nat) : (sat16 v).toNat = min v 0xFFFF := by
  simp [sat16]

/-- The wrap test on the saturated column is the test on the exact one, because `WIDTH ≤ 65535` (R146). -/
theorem width_le_sat16 (cfg : Cfg) (v : Nat) : cfg.width ≤ (sat16 v).toNat ↔ cfg.width ≤ v := by
  have := cfg.width_le
  rw [sat16_toNat]
  omega

/-- The cursor column after a character: 0 where the advanced column reaches `WIDTH` (R140, R141). -/
theorem advance_curX (F : Font) (s : State) : (advance F s).work.curX
    = if s.cfg.width ≤ s.work.curX.toNat + F.width then 0 else sat16 (s.work.curX.toNat + F.width) := by
  show (wrapCursor F (advanceColumn F s)).work.curX = _
  have hiff := width_le_sat16 s.cfg (s.work.curX.toNat + F.width)
  unfold wrapCursor
  split
  · next h => rw [if_pos (hiff.1 h)]; rfl
  · next h => rw [if_neg fun h' => h (hiff.2 h')]; rfl

/-- The cursor row after a character: advanced only where the column wraps (R140, R146). -/
theorem advance_curY (F : Font) (s : State) : (advance F s).work.curY
    = if s.cfg.width ≤ s.work.curX.toNat + F.width then sat16 (s.work.curY.toNat + F.height) else s.work.curY := by
  show (wrapCursor F (advanceColumn F s)).work.curY = _
  have hiff := width_le_sat16 s.cfg (s.work.curX.toNat + F.width)
  unfold wrapCursor
  split
  · next h => rw [if_pos (hiff.1 h)]; rfl
  · next h => rw [if_neg fun h' => h (hiff.2 h')]; rfl

@[simp] theorem afterChar_cfg (F : Font) (t : Table) (k : Nat) (s : State) : (afterChar F t k s).cfg = s.cfg := by
  simp [afterChar]
@[simp] theorem afterChar_cmdQ (F : Font) (t : Table) (k : Nat) (s : State) :
    (afterChar F t k s).cmdQ = s.cmdQ := by
  simp [afterChar]
@[simp] theorem afterChar_rspQ (F : Font) (t : Table) (k : Nat) (s : State) :
    (afterChar F t k s).rspQ = s.rspQ := by
  simp [afterChar]
@[simp] theorem afterChar_fb (F : Font) (t : Table) (k : Nat) (s : State) : (afterChar F t k s).fb
    = blitMem s.cfg F.rows F.cols (glyphCell F t k) s.work.curX.toNat s.work.curY.toNat s.fb := by
  simp [afterChar]
@[simp] theorem afterChar_si (F : Font) (t : Table) (k : Nat) (s : State) :
    (afterChar F t k s).work.si = s.work.si + 1 := by
  simp [afterChar, blitWork]

theorem afterChar_curX (F : Font) (t : Table) (k : Nat) (s : State) : (afterChar F t k s).work.curX
    = if s.cfg.width ≤ s.work.curX.toNat + F.width then 0 else sat16 (s.work.curX.toNat + F.width) := by
  rw [afterChar, advance_curX]; rfl

theorem afterChar_curY (F : Font) (t : Table) (k : Nat) (s : State) : (afterChar F t k s).work.curY
    = if s.cfg.width ≤ s.work.curX.toNat + F.width then sat16 (s.work.curY.toNat + F.height) else s.work.curY := by
  rw [afterChar, advance_curY]; rfl

/-- The loop at a character without a glyph (R143). -/
theorem drawChars_none {F : Font} {ch : CharCode} (hg : glyphIndex F ch = none) (text : List CharCode) (s : State) :
    drawChars F (ch :: text) s = .ok (.notRepresentable, s) := by
  simp [drawChars, lookup_eq_none hg]

/-- The loop at a character with a glyph (R140). -/
theorem drawChars_some {fsel : FontSel} {F : Font} (hF : F.Facts fsel) {ch : CharCode} {t : Table} {k : Nat}
    (hg : glyphIndex F ch = some (t, k)) (text : List CharCode) (s : State) :
    drawChars F (ch :: text) s = drawChars F text (afterChar F t k s) := by
  simp only [drawChars, lookup_eq_some hF hg, blit_eq hF hg]
  rfl

/-- What the loop leaves alone, and what it keeps. -/
structure DrewChars (s t : State) : Prop where
  cfg : t.cfg = s.cfg
  cmdQ : t.cmdQ = s.cmdQ
  rspQ : t.rspQ = s.rspQ
  wf : s.fb.wf → t.fb.wf
  within : s.fb.within s.cfg.fbSize → t.fb.within s.cfg.fbSize

theorem DrewChars.refl (s : State) : DrewChars s s := ⟨rfl, rfl, rfl, id, id⟩

theorem DrewChars.trans {s t u : State} (h1 : DrewChars s t) (h2 : DrewChars t u) : DrewChars s u :=
  ⟨h2.cfg.trans h1.cfg, h2.cmdQ.trans h1.cmdQ, h2.rspQ.trans h1.rspQ, fun h => h2.wf (h1.wf h),
    fun h => h1.cfg ▸ h2.within (h1.cfg ▸ h1.within h)⟩

theorem afterChar_drew (F : Font) (t : Table) (k : Nat) (s : State) : DrewChars s (afterChar F t k s) :=
  ⟨by simp, by simp, by simp, fun h => by simpa using blitMem_wf h _ _ _ _ _ _,
    fun h => by simpa using blitMem_within h _ _ _ _ _⟩

/-- The loop always completes, with `OK` exactly when every character has a glyph (R140, R143). -/
theorem drawChars_completes {fsel : FontSel} {F : Font} (hF : F.Facts fsel) (text : List CharCode) (s : State) :
    ∃ st t, drawChars F text s = .ok (st, t) ∧ DrewChars s t ∧ (st = .ok ∨ st = .notRepresentable)
      ∧ (st = .ok ↔ ∀ ch ∈ text, glyphIndex F ch ≠ none) := by
  induction text generalizing s with
  | nil => exact ⟨.ok, s, rfl, .refl s, .inl rfl, by simp⟩
  | cons ch text ih =>
    cases hg : glyphIndex F ch with
    | none => exact ⟨.notRepresentable, s, drawChars_none hg text s, .refl s, .inr rfl, by simp [hg]⟩
    | some g =>
      obtain ⟨st, t, h, hd, hst, hiff⟩ := ih (afterChar F g.1 g.2 s)
      exact ⟨st, t, by rw [drawChars_some hF hg, h], (afterChar_drew F g.1 g.2 s).trans hd, hst, by simp [hiff, hg]⟩

/-- Two states that differ only in working registers the loop does not read. -/
structure SameCursor (s t : State) : Prop where
  cfg : t.cfg = s.cfg
  fb : t.fb = s.fb
  curX : t.work.curX = s.work.curX
  curY : t.work.curY = s.work.curY
  si : t.work.si = s.work.si

theorem afterChar_sameCursor (F : Font) (t : Table) (k : Nat) {s s' : State} (h : SameCursor s s') :
    SameCursor (afterChar F t k s) (afterChar F t k s') :=
  ⟨by simp [h.cfg], by simp [h.cfg, h.fb, h.curX, h.curY], by simp [afterChar_curX, h.cfg, h.curX],
    by simp [afterChar_curY, h.cfg, h.curX, h.curY], by simp [h.si]⟩

/-- Of the registers the loop reads only `CURX`, `CURY` and `SI`, and of the rest of the state only the configuration
and the frame buffer (R24, R28). -/
theorem drawChars_sameCursor {fsel : FontSel} {F : Font} (hF : F.Facts fsel) (text : List CharCode) {s s' : State}
    (h : SameCursor s s') : ∃ st t t', drawChars F text s = .ok (st, t) ∧ drawChars F text s' = .ok (st, t')
      ∧ SameCursor t t' := by
  induction text generalizing s s' with
  | nil => exact ⟨.ok, s, s', rfl, rfl, h⟩
  | cons ch text ih =>
    cases hg : glyphIndex F ch with
    | none => exact ⟨.notRepresentable, s, s', drawChars_none hg text s, drawChars_none hg text s', h⟩
    | some g =>
      obtain ⟨st, t, t', h1, h2, h3⟩ := ih (afterChar_sameCursor F g.1 g.2 h)
      exact ⟨st, t, t', by rw [drawChars_some hF hg, h1], by rw [drawChars_some hF hg, h2], h3⟩

end Sys2Proof.Machine
end

