-- ==== Sys2Proof/Tests/Slice0.lean ====
section
/-! SUPPORT. Tests of the model, and the witnesses of the claims' hypotheses. The expected values are those of
`95_test_vectors.md`, under its configuration TCFG; the vector is named where a test uses one. -/

namespace Sys2Proof.Machine.Tests

set_option Elab.async false

/-! ### The configuration TCFG (`95_test_vectors.md` part 1) -/

/-- `TG(h, idx, i, j)`. -/
def glyphFormula (h idx i j : Nat) : Byte := BitVec.ofNat 8 ((idx * 37 + i * 101 + j * 29 + h) % 255 + 1)

/-- Byte `k` of a table of TCFG whose first glyph has table index `first`. -/
def tableByte (h cols first k : Nat) : Byte :=
  let gsize := h / 8 * cols
  glyphFormula h (first + k / gsize) (k % gsize / cols) (k % gsize % cols)

def testFont (height width : Nat) (codes : List CharCode) : Font where
  height := height
  width := width
  ascii := tabulate (tableByte height width 0) (95 * (height / 8 * width)) (95 * (height / 8 * width))
  extraCodes := codes
  extra := tabulate (tableByte height width 95) (codes.length * (height / 8 * width))
    (codes.length * (height / 8 * width))

def testData : CfgData where
  width := 128
  height := 64
  fonts := [(8, testFont 8 6 [0xB0]), (16, testFont 16 8 [])]

theorem test_testData_wf : testData.wf = true := by
  simp [CfgData.wf, testData, Font.wf, testFont, Font.gsize, Font.rows, Font.cols, tabulate_length, printableCount]

def TCFG : Cfg := ⟨testData, test_testData_wf⟩

def f8 : Font := testFont 8 6 [0xB0]
def f16 : Font := testFont 16 8 []

/-- The state after reset with words in `CmdQ`. -/
def start (words : List Word) : State := hostSend words (State.resetWith TCFG)

/-- The same with bytes in the frame buffer. -/
def startWith (m : Memory) (words : List Word) : State := (start words).setFb m

/-- The state a step left, where it left one. -/
def nextOf (o : Host.Outcome State Fault Refusal) : Option State :=
  match o with
  | .next s => some s
  | .fault _ => none
  | .refused _ => none

/-- The words of all records in `RspQ` after a step. -/
def answer (o : Host.Outcome State Fault Refusal) : Option (List Word) :=
  (nextOf o).map fun s => s.rspQ.flatMap Response.words

/-- The listed bytes of the frame buffer after a step: every byte not listed is zero. -/
def listed (o : Host.Outcome State Fault Refusal) : Option Memory := (nextOf o).map State.fb

/-- Bytes at consecutive columns, from page `p`, column `c` on. -/
def cellsAt (p c : Nat) : List Byte → Memory
  | [] => []
  | b :: bs => (p * 128 + c, b) :: cellsAt p (c + 1) bs

theorem next_of_isSome {o : Host.Outcome State Fault Refusal} (h : (nextOf o).isSome = true) :
    o = .next ((nextOf o).get h) := by
  cases o with
  | next s => rfl
  | fault f => cases h
  | refused r => cases h

/-! ### Well-formedness -/

/-- A text of 65536 characters has no encoding (R68). -/
theorem test_wf_refuses_a_longer_text :
    Instr.wf (.drawString 0 0 8 (List.replicate 65536 0x41)) = false := by
  simp only [Instr.wf, maxText, List.length_replicate]
  decide

/-- `WIDTH = 0` (R7). -/
theorem test_cfg_refuses_no_columns : Cfg.check ⟨0, 64, []⟩ = none := by decide
/-- `WIDTH = 65536` (D26). -/
theorem test_cfg_refuses_too_many_columns : Cfg.check ⟨65536, 64, []⟩ = none := by decide
/-- `HEIGHT` no multiple of 8 (R7). -/
theorem test_cfg_refuses_a_cut_page : Cfg.check ⟨128, 60, []⟩ = none := by decide
/-- `HEIGHT = 65536` (D26). -/
theorem test_cfg_refuses_too_many_rows : Cfg.check ⟨128, 65536, []⟩ = none := by decide
/-- One selector twice (R7: `FONTS` is a map). -/
theorem test_cfg_refuses_a_repeated_selector : Cfg.check ⟨128, 64, [(8, f8), (8, f8)]⟩ = none := by decide +kernel
/-- A font filed under another height (R8). -/
theorem test_font_refuses_another_height : Font.wf 16 f8 = false := by decide +kernel
/-- A height that is no multiple of 8 (R8). -/
theorem test_font_refuses_a_cut_row : Font.wf 12 (testFont 12 6 []) = false := by decide +kernel
/-- A width of 0, and one of 256 (R8, D26). -/
theorem test_font_refuses_widths : Font.wf 8 (testFont 8 0 []) = false
    ∧ Font.wf 8 { f8 with width := 256 } = false := by decide +kernel
/-- A table with a byte missing (R8). -/
theorem test_font_refuses_a_short_table : Font.wf 8 { f8 with ascii := f8.ascii.drop 1 } = false := by decide +kernel
/-- The same extra code twice, and an extra code below 0x80 (R8). -/
theorem test_font_refuses_extra_codes : Font.wf 8 (testFont 8 6 [0xB0, 0xB0]) = false
    ∧ Font.wf 8 (testFont 8 6 [0x7F]) = false := by decide +kernel
/-- A missing glyph for an extra code (R8). -/
theorem test_font_refuses_a_missing_extra_glyph : Font.wf 8 { f8 with extra := [] } = false := by decide +kernel

/-! ### Encodings: words of `30_encoding.md` R75 and `95_test_vectors.md` 3.1, written out -/

theorem test_decode_glyphFor : decode [0x01100000, 0x00000041] = .ok (.glyphFor 16 0x41, []) := by decide
theorem test_decode_glyphWidth : decode [0x02080000, 0x000000B0] = .ok (.glyphWidth 8 0xB0, []) := by decide
theorem test_decode_fontHeight : decode [0x03080000] = .ok (.fontHeight 8, []) := by decide
theorem test_decode_clear : decode [0x10000000, 0x14000000] = .ok (.clear, [0x14000000]) := by decide
/-- `OPC` 0001_0001, `ARG` bit 0, `Y` 63 in the high half and `X` 127 in the low half of the position word. -/
theorem test_decode_setPixel :
    decode [0b00010001000000000000000000000001, 0b00000000001111110000000001111111]
      = .ok (.setPixel 127 63 true, []) := by decide
theorem test_decode_drawGlyph :
    decode [0x12080000, 0x0003000A, 0x00000041] = .ok (.drawGlyph 10 3 8 0x41, []) := by decide
theorem test_decode_drawString :
    decode [0x13080003, 0x00000074, 0x00000041, 0x00000042, 0x00000041, 0x10000000]
      = .ok (.drawString 116 0 8 [0x41, 0x42, 0x41], [0x10000000]) := by decide
theorem test_decode_snapshot : decode [0x14000000] = .ok (.snapshot, []) := by decide
/-- The eight illegal headers of the table, each with the response given there. -/
theorem test_illegal_headers :
    ([0x10000001, 0x00000000, 0xFFFFFFFF, 0x11010000, 0x11000002, 0x12080001, 0x04000000, 0x15000000].map
      fun h => answer (step (start [h])))
      = [some [0x10030000], some [0x00030000], some [0xFF030000], some [0x11030000], some [0x11030000],
          some [0x12030000], some [0x04030000], some [0x15030000]] := by decide +kernel
/-- A command whose words are not all there is not executed (R61). -/
theorem test_partial_command_waits :
    nextOf (step (start [0x13080002, 0, 0x41])) = some (start [0x13080002, 0, 0x41]) := by decide +kernel
/-- The table gives `DRAW_STRING` its header and position word: bits above are character words of zeros. -/
theorem test_decodeTableWord : decodeTableWord 64 0x0003000A13080002 = some (.drawString 10 3 8 [0, 0])
    ∧ decodeTableWord 32 0x10000001 = none := by decide
/-- The next step runs the placed command on the reference device. -/
theorem test_withFetchWord :
    answer (step (State.reset.withFetchWord 32 0x03100000)) = some [0x03000010] := by decide +kernel

/-! ### One or two vectors for each command (3.2 to 3.6) -/

theorem test_glyphFor_A : answer (step (start [0x01080000, 0x41])) = some [0x01000106, 0x2A0DEFD2, 0x00006447] := by
  decide +kernel
theorem test_glyphFor_extra :
    answer (step (start [0x01080000, 0xB0])) = some [0x01000106, 0x290CEED1, 0x00006346] := by decide +kernel
theorem test_glyphWidth_extra : answer (step (start [0x02080000, 0xB0])) = some [0x02000006] := by decide +kernel
theorem test_glyphWidth_line_feed : answer (step (start [0x02080000, 0x0A])) = some [0x02010000] := by
  decide +kernel
theorem test_fontHeight : answer (step (start [0x03100000])) = some [0x03000010] := by decide +kernel
theorem test_fontHeight_unconfigured : answer (step (start [0x03180000])) = some [0x03020000] := by decide +kernel
theorem test_clear : listed (step (startWith (cellsAt 7 120 [0x01, 0xFF]) [0x10000000])) = some [] := by
  decide +kernel
/-- 3.3: the bottom-right pixel is bit 7 of the last byte. -/
theorem test_setPixel_last :
    listed (step (start [0x11000001, 0x003F007F])) = some (cellsAt 7 127 [0x80]) := by decide +kernel
/-- 3.3: `off` clears one bit and keeps seven. -/
theorem test_setPixel_off :
    listed (step (startWith (cellsAt 1 5 [0xFF]) [0x11000000, 0x000A0005])) = some (cellsAt 1 5 [0xFB]) := by
  decide +kernel
/-- G4: the straddling glyph of two rows. -/
theorem test_drawGlyph_G4 : listed (step (start [0x12100000, 0x00040000, 0x41])) = some
    (cellsAt 0 0 [0xA0, 0x70, 0x50, 0x20, 0xF0, 0xC0, 0x90, 0x60]
      ++ cellsAt 1 1 [0xD0, 0xA0, 0x70, 0x40, 0x10, 0xE0, 0xC0]
      ++ cellsAt 2 0 [0x04, 0x05, 0x07, 0x09, 0x0B, 0x0D, 0x0E]) := by decide +kernel
/-- G15: clipped at the right and at the bottom. -/
theorem test_drawGlyph_G15 : listed (step (start [0x12080000, 0x003C007C, 0xB0]))
    = some (cellsAt 7 124 [0x10, 0xE0, 0xC0, 0x90]) := by decide +kernel
/-- T2: the second glyph is cut, the third starts the next text row. -/
theorem test_drawString_T2 :
    listed (step (start [0x13080003, 0x00000078, 0x41, 0x42, 0x41])) = some
        (cellsAt 0 120 [0xD2, 0xEF, 0x0D, 0x2A, 0x47, 0x64, 0xF7, 0x15]
          ++ cellsAt 1 0 [0xD2, 0xEF, 0x0D, 0x2A, 0x47, 0x64])
      ∧ answer (step (start [0x13080003, 0x00000078, 0x41, 0x42, 0x41])) = some [0x13000003, 0x00080006] := by
  decide +kernel
/-- T6 aborts at the line feed; T10 saturates the cursor. -/
theorem test_drawString_T6_T10 :
    answer (step (start [0x13080003, 0, 0x41, 0x0A, 0x42])) = some [0x13010001, 0x00000006]
      ∧ answer (step (start [0x13100002, 0xFFF0FFFE, 0x41, 0x41])) = some [0x13000002, 0xFFFF0008] := by
  decide +kernel
/-- 3.3: with only `FB[1][5] = 0x04` set, response word 34 is 0x00000400, and there are 257 words. -/
theorem test_snapshot : (answer (step (startWith (cellsAt 1 5 [0x04]) [0x14000000]))).map
    (fun ws => (ws.length, ws[0]?, ws[33]?, ws[34]?, ws[35]?))
      = some (257, some 0x14000000, some 0, some 0x00000400, some 0) := by decide +kernel
/-- 3.4: the split of 0xD2 at offsets 3 and 7. -/
theorem test_split : lowHalf 3 0xD2 = 0x90 ∧ highHalf 3 0xD2 = 0x06 ∧ lowHalf 7 0xD2 = 0x00 ∧ highHalf 7 0xD2 = 0x69 := by
  decide

/-! ### The assembler and the LineBuffer (R73, 3.7) -/

theorem test_assemble_escapes :
    assemble ["draw_string 0x10, 9, f8, \"A\\n\\u\x7bB0\x7d\" ; two".toList, "new_frame".toList, "; none".toList]
      = some [0x13080003, 0x00090010, 0x41, 0x0A, 0xB0, 0x10000000] := by decide +kernel
theorem test_assemble_refuses : assemble ["set_pixel 65536, 0, on".toList] = none
    ∧ assemble ["draw_glyph 0, 0, f8".toList] = none := by decide +kernel
theorem test_lineBuffer_line_feed : (LineBuffer.new 2).map (·.push [0x0A]) = some ⟨[[], []], 2, 0⟩ := by decide
theorem test_lineBuffer_evicts : (LineBuffer.new 1).map (·.push [0x78, 0x0A, 0x79]) = some ⟨[[0x79]], 1, 1⟩ := by
  decide

/-! ### Witnesses: states and operands that meet the hypotheses of the claims -/

/-- A state in use: two bytes drawn, a record not yet taken, words of two commands waiting. -/
def busy : State := { start [0x11000001, 0x000A0005, 0x14000000] with
  fb := [(5, 0x80), (1023, 0x01)]
  rspQ := [{ opc := 0x10, status := .ok, val := 0, cursor := none, payload := [] }] }

theorem test_busy_inv : busy.Inv := by
  refine ⟨by decide, by decide, fun r hr => ?_⟩
  rcases List.mem_singleton.1 hr with rfl
  refine ⟨by decide, by decide, by decide, by decide, by decide, by decide⟩

theorem test_f8_resolves : resolveFont busy.cfg 8 = some f8 := rfl
theorem test_f16_resolves : resolveFont busy.cfg 16 = some f16 := rfl
theorem test_font_unconfigured : resolveFont busy.cfg 24 = none ∧ resolveFont busy.cfg 0 = none := ⟨rfl, rfl⟩

/-- The shortest and the longest text. -/
theorem test_witness_DecodeEncodeRoundTrip : Instr.wf (.drawString 0 0 8 []) = true
    ∧ Instr.wf (.drawString 0xFFFF 0xFFFF 0xFF (List.replicate 65535 0xFFFFFFFF)) = true := by
  simp only [Instr.wf, maxText, List.length_replicate]
  decide
theorem test_witness_DecodedWordsAreTheEncoding :
    decode [0x11000000, 0x003F007F, 0x10000000] = .ok (.setPixel 127 63 false, [0x10000000]) := by decide
theorem test_witness_OpcodeRowsAreDisjoint :
    ⟨.drawString, .s, 0x13000000, 0xFF000000⟩ ∈ opcodeTable
      ∧ (OpcodeRow.mk .drawString .s 0x13000000 0xFF000000).selects 0x1308FFFF = true := by decide
/-- A legal, an illegal and an incomplete header; the longest command. -/
theorem test_witness_HeaderDeterminesLength : Instr.wf .clear = true ∧ selectRow 0x10000001 = none
    ∧ decode [0x12080000, 0] = .error .incompleteCommand ∧ commandLength 0x1308FFFF = 65537 := by decide
/-- An illegal header of each of the four kinds, and a legal one. -/
theorem test_witness_IllegalHeadersAreAnswered : (start [0x15000000]).cmdQ = [0x15000000]
    ∧ headerOpc 0x15000000 ∉ [0x01#8, 0x02#8, 0x03#8, 0x10#8, 0x11#8, 0x12#8, 0x13#8, 0x14#8]
    ∧ (headerOpc 0x12080001 = 0x12 ∧ headerArg 0x12080001 ≠ 0)
    ∧ (headerOpc 0x11000002 = 0x11 ∧ (headerArg 0x11000002).extractLsb' 1 15 ≠ 0)
    ∧ (headerOpc 0x14010000 = 0x14 ∧ headerFsel 0x14010000 ≠ 0)
    ∧ decode [0x14000000] ≠ .error (.illegalHeader 0x14000000) := by decide
theorem test_witness_StepRunsTheDecodedCommand :
    decode busy.cmdQ = .ok (.setPixel 5 10 true, [0x14000000]) ∧ Instr.wf (.setPixel 5 10 true) = true
      ∧ busy.cmdQ = encode (.setPixel 5 10 true) ++ [0x14000000] := by decide
/-- Each side of the equivalence: waiting on nothing, waiting on a part, and not waiting. -/
theorem test_witness_IdleExactlyWithoutWholeCommand : (start []).cmdQ = []
    ∧ ([] : List Word).length + 1 < commandLength 0x12080000 ∧ nextOf (step busy) ≠ some busy := by decide +kernel
theorem test_witness_EachCommandLeavesOneRecord :
    busy.cmdQ = 0x11000001 :: [0x000A0005, 0x14000000] ∧ commandLength 0x11000001 ≤ 3 := by decide
theorem test_witness_StepKeepsInvariant : busy.Inv ∧ ∃ t, step busy = .next t :=
  ⟨test_busy_inv, _, next_of_isSome (by decide +kernel)⟩
theorem test_witness_ResetState : 7 < TCFG.pages ∧ 127 < TCFG.width := by decide
theorem test_witness_FirstCommandAfterReset : Instr.wf (.drawGlyph 0 0 8 0x41) = true := by decide
theorem test_witness_LaterWordsDoNotDisturb : busy.enabled = true ∧ ∃ t, step busy = .next t :=
  ⟨by decide, _, next_of_isSome (by decide +kernel)⟩
theorem test_witness_TakingRecordsDoesNotDisturb :
    (∃ r s', hostTake busy = some (r, s')) ∧ ∃ t, step busy = .next t :=
  ⟨⟨_, _, rfl⟩, _, next_of_isSome (by decide +kernel)⟩
theorem test_witness_FontIsResolvedFirst : (8, f8) ∈ busy.cfg.data.fonts ∧ resolveFont busy.cfg 24 = none := by
  decide +kernel
/-- The codes where the cases of the lookup meet. -/
theorem test_witness_LookupAnswers : resolveFont busy.cfg 8 = some f8
    ∧ [0x1F, 0x20, 0x7E, 0x7F, 0x80, 0xB0, 0xFFFFFFFF].map (glyphIndex f8)
      = [none, some (.ascii, 0), some (.ascii, 94), none, none, some (.extra, 0), none]
    ∧ f8.extraCodes[0]? = some 0xB0 ∧ (0x80 : CharCode) ∉ f8.extraCodes := by decide +kernel
theorem test_witness_GlyphHasItsSize : resolveFont busy.cfg 16 = some f16
    ∧ glyphIndex f16 0x7E = some (.ascii, 94) ∧ 1 < f16.rows ∧ 7 < f16.cols := by decide +kernel
/-- For `GLYPH_FOR`, `GLYPH_WIDTH` and `DRAW_GLYPH`: a character of each table. -/
theorem test_witness_glyph : resolveFont busy.cfg 8 = some f8 ∧ glyphIndex f8 0x41 = some (.ascii, 33)
    ∧ glyphIndex f8 0xB0 = some (.extra, 0) := by decide +kernel
theorem test_witness_MissingGlyphIsOnlyReported :
    resolveFont busy.cfg 8 = some f8 ∧ glyphIndex f8 0x0A = none := by decide +kernel
/-- The invariant, a representable character, and a cell of the glyph at the last byte of the display. -/
theorem test_witness_QueriesAgreeWithDrawing : busy.Inv
    ∧ (∃ a, exec (.glyphFor 8 0x41) busy = .next a ∧ a.lastStatus = some .ok)
    ∧ 56 / 8 + 0 < busy.cfg.pages ∧ 122 + 5 < busy.cfg.width :=
  ⟨test_busy_inv, ⟨_, next_of_isSome (by decide +kernel), by decide +kernel⟩, by decide, by decide⟩
/-- The last pixel of the display, and the first column and row outside it. -/
theorem test_witness_SetPixelWritesOnePixel : busy.Inv ∧ (127#16).toNat < busy.cfg.width
    ∧ (63#16).toNat < busy.cfg.height ∧ busy.cfg.width ≤ (128#16).toNat ∧ busy.cfg.height ≤ (64#16).toNat :=
  ⟨test_busy_inv, by decide, by decide, by decide, by decide⟩
theorem test_witness_ClearZeroesTheBuffer :
    Memory.wf (State.resetWith TCFG).fb ∧ (State.resetWith TCFG).fb.read 1023 = 0 := by decide
theorem test_witness_SetPixelAlgebra : busy.Inv ∧ (5#16).toNat < busy.cfg.width ∧ (10#16).toNat < busy.cfg.height
    ∧ busy.pixel 5 10 = false ∧ ((5#16, 10#16) ≠ (5#16, 11#16)) :=
  ⟨test_busy_inv, by decide, by decide, by decide, by decide⟩
theorem test_witness_SnapshotPagesAreTheDisplay :
    (∃ t r, exec .snapshot busy = .next t ∧ t.rspQ = busy.rspQ ++ [r]) ∧ 7 < busy.cfg.pages :=
  ⟨⟨_, (nextOf (exec .snapshot busy)).get (by decide +kernel) |>.rspQ.getLast (by decide +kernel),
    next_of_isSome (by decide +kernel), by decide +kernel⟩, by decide⟩
theorem test_witness_SplitHalves : 1 ≤ 1 ∧ 7 ≤ 7 ∧ 0 < 8 ∧ 7 < 8 := by decide
/-- Aligned: the last text row of the display, whose cells reach its last byte, and an address beside the glyph. -/
theorem test_witness_AlignedGlyphOnTheDisplay : busy.Inv ∧ resolveFont busy.cfg 8 = some f8
    ∧ glyphIndex f8 0x41 = some (.ascii, 33) ∧ (56#16).toNat % 8 = 0
    ∧ (56#16).toNat / 8 + 0 < busy.cfg.pages ∧ (122#16).toNat + 5 < busy.cfg.width
    ∧ ∀ j, j < 6 → 7 * 128 + 121 ≠ cellAddr busy.cfg 7 (122 + j) :=
  ⟨test_busy_inv, rfl, by decide +kernel, by decide, by decide, by decide, by decide⟩
/-- Straddling: the page below the glyph is the last of the display. -/
theorem test_witness_StraddlingGlyphOnTheDisplay : busy.Inv ∧ resolveFont busy.cfg 8 = some f8
    ∧ glyphIndex f8 0x41 = some (.ascii, 33) ∧ (52#16).toNat % 8 ≠ 0
    ∧ (52#16).toNat / 8 + f8.rows < busy.cfg.pages ∧ (122#16).toNat + 5 < busy.cfg.width
    ∧ ∀ i, i < 2 → ∀ j, j < 6 → 5 * 128 + 122 ≠ cellAddr busy.cfg (6 + i) (122 + j) :=
  ⟨test_busy_inv, rfl, by decide +kernel, by decide, by decide, by decide, by decide⟩
theorem test_witness_RedrawingIsIdempotent : busy.Inv := test_busy_inv
theorem test_witness_StringMatchesUnboundedLoop : busy.Inv ∧ resolveFont busy.cfg 8 = some f8
    ∧ (List.replicate 65535 (0x41 : CharCode)).length ≤ 65535 :=
  ⟨test_busy_inv, rfl, by simp only [List.length_replicate]; decide⟩
theorem test_witness_StringAbortsAtFirstMissingGlyph : resolveFont busy.cfg 8 = some f8
    ∧ (∀ ch ∈ [(0x41 : CharCode)], glyphIndex f8 ch ≠ none) ∧ glyphIndex f8 0x0A = none :=
  ⟨rfl, fun ch h => List.mem_singleton.1 h ▸ by decide +kernel, by decide +kernel⟩
/-- The first of two texts that chain: it ends with status `OK` and a cursor (T13). -/
theorem test_witness_StringsChain : ∃ t r cursor, exec (.drawString 0 0 8 [0x41, 0x42]) busy = .next t
    ∧ t.rspQ = busy.rspQ ++ [r] ∧ r.status = .ok ∧ r.cursor = some cursor :=
  ⟨_, { opc := 0x13, status := .ok, val := 2, cursor := some ⟨12, 0⟩, payload := [] }, ⟨12, 0⟩,
    next_of_isSome (by decide +kernel), by decide +kernel, rfl, rfl⟩
/-- The first row below the display, and the two sides of the equivalence. -/
theorem test_witness_StringBelowTheDisplay : resolveFont busy.cfg 8 = some f8
    ∧ busy.cfg.pages ≤ (64#16).toNat / 8 ∧ glyphIndex f8 0x41 ≠ none ∧ glyphIndex f8 0x0A = none := by
  decide +kernel
/-- Every command reaches a next state from `busy`. -/
theorem test_witness_CommandFrames : ∀ i ∈ [Instr.glyphFor 8 0x41, .glyphWidth 8 0x41, .fontHeight 8, .clear,
    .setPixel 0 0 true, .drawGlyph 0 0 8 0x41, .drawString 0 0 8 [0x41], .snapshot],
      ∃ t, exec i busy = .next t := by
  have h : ∀ i ∈ [Instr.glyphFor 8 0x41, .glyphWidth 8 0x41, .fontHeight 8, .clear, .setPixel 0 0 true,
      .drawGlyph 0 0 8 0x41, .drawString 0 0 8 [0x41], .snapshot], (nextOf (exec i busy)).isSome = true := by
    decide +kernel
  exact fun i hi => ⟨_, next_of_isSome (h i hi)⟩
/-- Two states that share only the configuration and the frame buffer. -/
theorem test_witness_CommandsShareOnlyTheBuffer : busy.cfg = (startWith busy.fb []).cfg
    ∧ busy.fb = (startWith busy.fb []).fb ∧ busy ≠ startWith busy.fb [] := by decide +kernel
/-- A LineBuffer with the cursor inside its head line, full. -/
theorem test_witness_LineBufferKeepsInvariant : LineBuffer.Inv ⟨[[0x61, 0x62], []], 2, 1⟩ := by
  refine ⟨by decide, by decide, ?_, by decide, by decide⟩
  intro l hl
  cases hl
  decide
theorem test_witness_LineFeedInsertsAndEvicts : 1 ≤ 2 ∧ [[0x61#32], []].length ≤ 2 ∧ ([] : List Word).length ≤ 1 := by
  decide
/-- The cursor inside the line and beyond it. -/
theorem test_witness_CharacterIsWrittenAtTheCursor : (0x58 : CharCode) ≠ lineFeed ∧ (0x58 : CharCode) ≠ carriageReturn
    ∧ (∀ index ∈ [0, 5], let lb := LineBuffer.mk [[0x61, 0x62]] 2 index
        (if lb.lines = [] then [[]] else lb.lines) = [0x61, 0x62] :: [])
    ∧ (let lb := LineBuffer.mk [] 2 0; (if lb.lines = [] then [[]] else lb.lines) = [] :: []) := by decide

end Sys2Proof.Machine.Tests
end

section
/-! SUPPORT. The working registers show in nothing a step leaves but the registers (`10_state.md` R28, R30), and what
follows for reset: for each command, then for a step, then for a run. -/

namespace Sys2Proof.Machine

/-- Both outcomes are next states, equal but for the working registers. -/
def AgreeUpToWork (o o' : Host.Outcome State Fault Refusal) : Prop :=
  ∃ (t : State) (w : Working), o = .next t ∧ o' = .next (t.setWork w)

theorem AgreeUpToWork.next (t : State) (w : Working) : AgreeUpToWork (.next t) (.next (t.setWork w)) :=
  ⟨t, w, rfl, rfl⟩

/-! ### Accesses that are always in range -/

/-- Every byte of a glyph the font has can be read (R93). -/
theorem readSpan_glyph {fsel : FontSel} {F : Font} (hF : F.Facts fsel) {ch : CharCode} {t : Table} {k : Nat}
    (hg : glyphIndex F ch = some (t, k)) :
    readSpan (Glyph.read ⟨tableBytes F t, k * F.gsize⟩) F.gsize []
      = .ok ((List.range F.gsize).map fun n => (tableBytes F t).getD (k * F.gsize + n) 0) := by
  have hb := (glyphIndex_bounds hF hg).2
  rw [readSpan_ok (f := fun n => (tableBytes F t).getD (k * F.gsize + n) 0), List.append_nil]
  intro n hn
  exact Glyph.read_ok (g := ⟨tableBytes F t, k * F.gsize⟩) (show k * F.gsize + n < (tableBytes F t).length by omega)

/-- `SET_PIXEL` inside the display is one write, at page `y / 8` and column `x` (R112). -/
theorem writePixel_eq {x y : Coord} {s : State} (hx : x.toNat < s.cfg.width) (hy : y.toNat < s.cfg.height)
    (on : Bool) : writePixel x y on s = .ok ((s.setRow y).setFb
      (s.fb.write (cellAddr s.cfg (y.toNat / 8) x.toNat)
        (pixelByte (s.cell (y.toNat / 8) x.toNat) (y.toNat % 8) on))) := by
  have hpage : y.toNat / 8 < s.cfg.pages := by have := s.cfg.height_eq; omega
  have haddr : cellAddr s.cfg (y.toNat / 8) x.toNat < (s.setRow y).cfg.fbSize := cellAddr_lt hpage hx
  simp only [writePixel, writePixelAt, modifyByte, State.setRow_cfg, State.setRow_p0_toNat, State.setRow_off_toNat,
    fbRead_ok haddr, fbWrite_ok haddr, Except.bind]
  rfl

theorem execSetPixel_outside {x y : Coord} {on : Bool} {s : State}
    (hout : s.cfg.width ≤ x.toNat ∨ s.cfg.height ≤ y.toNat) :
    execSetPixel x y on s = .next (s.respond pixelDone) := if_pos hout

theorem execSetPixel_inside {x y : Coord} {on : Bool} {s : State} (hx : x.toNat < s.cfg.width)
    (hy : y.toNat < s.cfg.height) : execSetPixel x y on s = .next (((s.setRow y).setFb
      (s.fb.write (cellAddr s.cfg (y.toNat / 8) x.toNat)
        (pixelByte (s.cell (y.toNat / 8) x.toNat) (y.toNat % 8) on))).respond pixelDone) := by
  rw [execSetPixel, if_neg (by omega), writePixel_eq hx hy]
  rfl

/-! ### Each command -/

theorem withFont_agree {op : Op} {font : FontSel} {cursor : Option Cursor} {s : State} {w : Working}
    {body body' : Font → Host.Outcome State Fault Refusal}
    (hbody : ∀ F, resolveFont s.cfg font = some F → AgreeUpToWork (body F) (body' F)) :
    AgreeUpToWork (withFont op font cursor s body) (withFont op font cursor (s.setWork w) body') := by
  cases h : resolveFont s.cfg font with
  | none =>
    rw [withFont_none h, withFont_none (s := s.setWork w) h]
    exact .next (raise op.code .unconfiguredFont 0 cursor s) w
  | some F =>
    rw [withFont_some h, withFont_some (s := s.setWork w) h]
    exact hbody F h

/-- `Lookup` writes `GI` before the glyph is read, so only the rest of the command is left to compare (R92). -/
theorem withGlyph_agree {op : Op} {font : FontSel} {ch : CharCode}
    {body : Font → Glyph → State → Host.Outcome State Fault Refusal}
    (hbody : ∀ {F : Font} {t : Table} {k : Nat}, F.Facts font → glyphIndex F ch = some (t, k) → ∀ s w,
      AgreeUpToWork (body F ⟨tableBytes F t, k * F.gsize⟩ s) (body F ⟨tableBytes F t, k * F.gsize⟩ (s.setWork w)))
    (s : State) (w : Working) :
    AgreeUpToWork (withGlyph op font ch s body) (withGlyph op font ch (s.setWork w) body) := by
  obtain h | ⟨F, h, hg⟩ | ⟨F, t, k, h, hg⟩ := font_cases s.cfg font ch
  · rw [withGlyph_unconfigured h, withGlyph_unconfigured (s := s.setWork w) h]
    exact .next (raise op.code .unconfiguredFont 0 none s) w
  · rw [withGlyph_notRepresentable h hg, withGlyph_notRepresentable (s := s.setWork w) h hg]
    exact .next (raise op.code .notRepresentable 0 none s) w
  · rw [withGlyph_some h hg, withGlyph_some (s := s.setWork w) h hg]
    exact hbody (resolveFont_facts h) hg (s.setGi (BitVec.ofNat 8 k)) { w with gi := BitVec.ofNat 8 k }

theorem execGlyphFor_agree (font : FontSel) (ch : CharCode) (s : State) (w : Working) :
    AgreeUpToWork (execGlyphFor font ch s) (execGlyphFor font ch (s.setWork w)) :=
  withGlyph_agree (fun hF hg s w => by simp only [readSpan_glyph hF hg]; exact .next (s.respond _) w) s w

theorem execGlyphWidth_agree (font : FontSel) (ch : CharCode) (s : State) (w : Working) :
    AgreeUpToWork (execGlyphWidth font ch s) (execGlyphWidth font ch (s.setWork w)) :=
  withGlyph_agree (fun _ _ s w => .next (s.respond _) w) s w

theorem execFontHeight_agree (font : FontSel) (s : State) (w : Working) :
    AgreeUpToWork (execFontHeight font s) (execFontHeight font (s.setWork w)) :=
  withFont_agree fun _ _ => .next (s.respond _) w

/-- Inside the display `P0` and `OFF` are written before they are read (R112). -/
theorem execSetPixel_agree (x y : Coord) (on : Bool) (s : State) (w : Working) :
    AgreeUpToWork (execSetPixel x y on s) (execSetPixel x y on (s.setWork w)) := by
  by_cases hout : s.cfg.width ≤ x.toNat ∨ s.cfg.height ≤ y.toNat
  · rw [execSetPixel_outside hout, execSetPixel_outside (s := s.setWork w) hout]
    exact .next (s.respond pixelDone) w
  · have hx : x.toNat < s.cfg.width := by omega
    have hy : y.toNat < s.cfg.height := by omega
    rw [execSetPixel_inside hx hy, execSetPixel_inside (s := s.setWork w) hx hy]
    exact .next _ ((s.setWork w).setRow y).work

/-- The blit writes `P0`, `OFF`, `I` and `J` before it reads them (R131). -/
theorem execDrawGlyph_agree (x y : Coord) (font : FontSel) (ch : CharCode) (s : State) (w : Working) :
    AgreeUpToWork (execDrawGlyph x y font ch s) (execDrawGlyph x y font ch (s.setWork w)) :=
  withGlyph_agree (fun {F} _ _ hF hg s w => by
    simp only [blit_eq hF hg]
    exact .next _ (blitWork F y w)) s w

/-- The loop of `DRAW_STRING` leaves everything but the frame buffer and the registers as it was. -/
theorem DrewChars.of_drawChars {fsel : FontSel} {F : Font} (hF : F.Facts fsel) {text : List CharCode} {s t : State}
    {st : Status} (h : drawChars F text s = .ok (st, t)) : DrewChars s t := by
  obtain ⟨st', t', h', hd, -⟩ := drawChars_completes hF text s
  cases h.symm.trans h'
  exact hd

/-- The loop from states equal but for registers it does not read ends in states equal but for such registers. -/
theorem drawChars_setWork {fsel : FontSel} {F : Font} (hF : F.Facts fsel) (text : List CharCode) {s : State}
    {w : Working} (h : SameCursor s (s.setWork w)) :
    ∃ st t w', drawChars F text s = .ok (st, t) ∧ drawChars F text (s.setWork w) = .ok (st, t.setWork w')
      ∧ SameCursor t (t.setWork w') := by
  obtain ⟨st, t, t', ht, ht', hsame⟩ := drawChars_sameCursor hF text h
  have hd := DrewChars.of_drawChars hF ht
  have hd' := DrewChars.of_drawChars hF ht'
  have heq : t' = t.setWork t'.work :=
    State.ext_fields hsame.cfg hsame.fb (hd'.cmdQ.trans hd.cmdQ.symm) (hd'.rspQ.trans hd.rspQ.symm) rfl
  exact ⟨st, t, t'.work, ht, heq ▸ ht', heq ▸ hsame⟩

/-- The record of `DRAW_STRING` shows of the registers only `CURX`, `CURY` and `SI` (R72, R140). -/
theorem endString_setWork (n : BitVec 16) (st : Status) {t : State} {w : Working} (h : SameCursor t (t.setWork w)) :
    endString n st (t.setWork w) = (endString n st t).setWork w := by
  have hcursor : (t.setWork w).cursor = t.cursor := by simp only [State.cursor, h.curX, h.curY]
  cases st <;> simp only [endString, hcursor, h.si] <;> rfl

/-- `CURX`, `CURY` and `SI` are written before the loop (R140). -/
theorem execDrawString_agree (x y : Coord) (font : FontSel) (text : List CharCode) (s : State) (w : Working) :
    AgreeUpToWork (execDrawString x y font text s) (execDrawString x y font text (s.setWork w)) := by
  have hstart : startString x y (s.setWork w)
      = (startString x y s).setWork { w with curX := x, curY := y, si := 0 } := rfl
  simp only [execDrawString, hstart]
  refine withFont_agree fun F h => ?_
  obtain ⟨st, t, w', ht, ht', hsame⟩ := drawChars_setWork (resolveFont_facts h) text
    (s := startString x y s) (w := { w with curX := x, curY := y, si := 0 }) ⟨rfl, rfl, rfl, rfl, rfl⟩
  rw [ht, ht']
  simp only [Except.map, finish_ok, endString_setWork _ st hsame]
  exact .next _ w'

/-- Every command writes each working register before it reads it (R28). -/
theorem exec_agree (i : Instr) (s : State) (w : Working) : AgreeUpToWork (exec i s) (exec i (s.setWork w)) := by
  cases i with
  | glyphFor font ch => exact execGlyphFor_agree font ch s w
  | glyphWidth font ch => exact execGlyphWidth_agree font ch s w
  | fontHeight font => exact execFontHeight_agree font s w
  | clear => exact .next ((s.setFb []).respond _) w
  | setPixel x y on => exact execSetPixel_agree x y on s w
  | drawGlyph x y font ch => exact execDrawGlyph_agree x y font ch s w
  | drawString x y font text => exact execDrawString_agree x y font text s w
  | snapshot => exact .next (s.respond _) w

/-! ### Steps and runs -/

theorem withoutCommand_setWork (r : Reject) (s : State) (w : Working) :
    withoutCommand r (s.setWork w) = (withoutCommand r s).setWork w := by
  cases r <;> rfl

/-- A step shows nothing of the working registers it starts from (R28, R30). -/
theorem step_agree (s : State) (w : Working) : AgreeUpToWork (step s) (step (s.setWork w)) := by
  simp only [step, State.setWork_cmdQ]
  cases decode s.cmdQ with
  | ok c => exact exec_agree c.1 (s.setCmdQ c.2) w
  | error r =>
    simp only [withoutCommand_setWork]
    exact .next (withoutCommand r s) w

theorem run_succ_of_next {M : Host.Core} {s t : M.State} (h : M.step s = .next t) (k : Nat) :
    M.run (k + 1) s = M.run k t := by
  rw [Host.Core.run, h]

/-- A run of any number of steps shows nothing of the working registers it starts from (R28, R30). -/
theorem run_agree (k : Nat) (s : State) (w : Working) : AgreeUpToWork (core.run k s) (core.run k (s.setWork w)) := by
  induction k generalizing s w with
  | zero => exact .next s w
  | succ k ih =>
    obtain ⟨t, w', h, h'⟩ := step_agree s w
    rw [run_succ_of_next (M := core) h, run_succ_of_next (M := core) h']
    exact ih t w'

/-- Settles O13: the frame buffer, the queues and the configuration by the definition of reset, and the registers by
`run_agree`, an induction on the number of steps. -/
theorem resetState : Obligations.ResetState := by
  unfold Obligations.ResetState
  intro c
  refine ⟨fun p x _ _ => Memory.read_nil (cellAddr c p x), rfl, rfl, rfl, fun words w k => ?_⟩
  exact run_agree k (hostSend words (State.resetWith c)) w

end Sys2Proof.Machine
end

section
/-! SUPPORT. How long a command is, as the header's fields and the decoder say it (`30_encoding.md` R65, R66). -/

namespace Sys2Proof

theorem commandLength_illegal {h : Word} (hs : selectRow h = none) : commandLength h = 1 := by
  simp only [commandLength, hs]

theorem commandLength_selected {h : Word} {r : OpcodeRow} (hs : selectRow h = some r) :
    commandLength h = 1 + operandWords r.op.format h := by
  simp only [commandLength, hs, (fieldsOk_of_selectRow hs).2]

/-- The fields of a header give its command's length (R66). -/
theorem commandLength_of_fieldsOk {op : Op} {h : Word} (hf : op.fieldsOk h) :
    commandLength h = 1 + operandWords op.format h := by
  obtain ⟨r, hs, rfl, -⟩ := selectRow_of_fieldsOk hf
  exact commandLength_selected hs

/-! ### The words the encoder writes -/

/-- The encoder writes a header with the fields of the command's row, and as many operand words as that header asks
for (R65, R67). -/
theorem encode_header {i : Instr} (hwf : i.wf = true) :
    ∃ h operands, encode i = h :: operands ∧ i.op.fieldsOk h ∧ operands.length = operandWords i.op.format h := by
  cases i with
  | glyphFor font ch => exact ⟨_, _, rfl, by simp [Op.fieldsOk, Instr.op, Op.code], rfl⟩
  | glyphWidth font ch => exact ⟨_, _, rfl, by simp [Op.fieldsOk, Instr.op, Op.code], rfl⟩
  | fontHeight font => exact ⟨_, _, rfl, by simp [Op.fieldsOk, Instr.op, Op.code], rfl⟩
  | clear => exact ⟨_, _, rfl, by simp [Op.fieldsOk, Instr.op, Op.code], rfl⟩
  | setPixel x y on =>
    refine ⟨_, _, rfl, ?_, rfl⟩
    cases on <;> simp [Op.fieldsOk, Instr.op, Op.code]
  | drawGlyph x y font ch => exact ⟨_, _, rfl, by simp [Op.fieldsOk, Instr.op, Op.code], rfl⟩
  | drawString x y font text =>
    refine ⟨_, _, rfl, by simp [Op.fieldsOk, Instr.op, Op.code], ?_⟩
    have hcount : text.length ≤ 65535 := of_decide_eq_true hwf
    simp only [Instr.op, Op.format, operandWords, headerArg_headerWord, BitVec.toNat_ofNat, List.length_cons]
    omega
  | snapshot => exact ⟨_, _, rfl, by simp [Op.fieldsOk, Instr.op, Op.code], rfl⟩

/-- The header of a command's own words asks for exactly these words (R66). -/
theorem commandLength_encode {i : Instr} (hwf : i.wf = true) :
    ∃ h operands, encode i = h :: operands ∧ commandLength h = operands.length + 1 := by
  obtain ⟨h, operands, henc, hf, hlen⟩ := encode_header hwf
  exact ⟨h, operands, henc, by rw [commandLength_of_fieldsOk hf, hlen, Nat.add_comm]⟩

/-- How many words a command takes, whichever command it is (R65). -/
theorem Laws.encodeLength (i : Instr) : Laws.EncodeLength.Statement i := by
  cases i with
  | glyphFor font ch => exact Laws.EncodeLength.glyphFor font ch
  | glyphWidth font ch => exact Laws.EncodeLength.glyphWidth font ch
  | fontHeight font => exact Laws.EncodeLength.fontHeight font
  | clear => exact Laws.EncodeLength.clear
  | setPixel x y on => exact Laws.EncodeLength.setPixel x y on
  | drawGlyph x y font ch => exact Laws.EncodeLength.drawGlyph x y font ch
  | drawString x y font text => exact Laws.EncodeLength.drawString x y font text
  | snapshot => exact Laws.EncodeLength.snapshot

/-! ### The words the decoder waits for -/

/-- The operands of a row are incomplete exactly while fewer words follow than its format asks for (R61, R66). -/
theorem decodeOperands_incomplete_iff (op : Op) (h : Word) (q : List Word) :
    decodeOperands op h q = .error .incompleteCommand ↔ q.length < operandWords op.format h := by
  cases op with
  | glyphFor => cases q <;> simp [decodeOperands, operandWords, Op.format]
  | glyphWidth => cases q <;> simp [decodeOperands, operandWords, Op.format]
  | fontHeight => simp [decodeOperands, operandWords, Op.format]
  | clear => simp [decodeOperands, operandWords, Op.format]
  | setPixel => cases q <;> simp [decodeOperands, operandWords, Op.format]
  | drawGlyph =>
    match q with
    | [] => simp [decodeOperands, operandWords, Op.format]
    | [xy] => simp [decodeOperands, operandWords, Op.format]
    | xy :: ch :: q => simp [decodeOperands, operandWords, Op.format]
  | drawString =>
    cases q with
    | nil => simp [decodeOperands, operandWords, Op.format]
    | cons xy q =>
      simp only [decodeOperands, operandWords, Op.format, hasWords_iff, List.length_cons]
      split
      · simp only [reduceCtorEq, false_iff]; omega
      · simp only [true_iff]; omega
  | snapshot => simp [decodeOperands, operandWords, Op.format]

/-- A command is incomplete exactly while the queue has fewer words than its header asks for (R61, R66). -/
theorem decode_incomplete_iff (h : Word) (q : List Word) :
    decode (h :: q) = .error .incompleteCommand ↔ q.length + 1 < commandLength h := by
  cases hs : selectRow h with
  | none => simp [decode, hs, commandLength_illegal hs]
  | some r =>
    have hdecode : decode (h :: q) = decodeOperands r.op h q := by simp only [decode, hs]
    rw [hdecode, decodeOperands_incomplete_iff, commandLength_selected hs]
    omega

/-- Settles O4: the encoder's side by `commandLength_encode` with the lengths of `Laws.encodeLength`, the decoder's side
by `decode_incomplete_iff`. -/
theorem headerDeterminesLength : Obligations.HeaderDeterminesLength := by
  unfold Obligations.HeaderDeterminesLength
  refine ⟨fun i hwf => ?_, fun _ => commandLength_illegal, decode_incomplete_iff⟩
  obtain ⟨h, operands, henc, hlen⟩ := commandLength_encode hwf
  have htotal : commandLength h = (encode i).length := by rw [henc, hlen, List.length_cons]
  refine ⟨h, operands, henc, hlen, htotal.trans ?_⟩
  rw [Laws.encodeLength i]
  cases i <;> rfl

end Sys2Proof
end

section
/-! SUPPORT. Payload packing word by word, and the place of each byte in its word (`30_encoding.md` R71). -/

namespace Sys2Proof.Machine

/-- Byte `j` of a payload word stands at bits `8 * j` up (R45, R71). -/
theorem payloadWord_byte (f : Nat → Byte) {j : Nat} (hj : j < 4) :
    (payloadWord (f 0) (f 1) (f 2) (f 3)).extractLsb' (8 * j) 8 = f j := by
  have hword : payloadWord (f 0) (f 1) (f 2) (f 3) = f 3 ++ f 2 ++ f 1 ++ f 0 := rfl
  rw [hword]
  match j, hj with
  | 0, _ => rw [Nat.mul_zero, BitVec.extractLsb'_append_eq_right]
  | 1, _ =>
    rw [BitVec.extractLsb'_append_eq_of_le (by decide), Nat.mul_one, Nat.sub_self,
      BitVec.extractLsb'_append_eq_right]
  | 2, _ =>
    rw [BitVec.extractLsb'_append_eq_of_le (by decide), BitVec.extractLsb'_append_eq_of_le (by decide),
      show 8 * 2 - 8 - 8 = 0 from rfl, BitVec.extractLsb'_append_eq_right]
  | 3, _ =>
    rw [BitVec.extractLsb'_append_eq_of_le (by decide), BitVec.extractLsb'_append_eq_of_le (by decide),
      show 8 * 3 - 8 - 8 = 8 from rfl, BitVec.extractLsb'_append_eq_left]

/-- The first word of a payload takes its first four bytes, missing ones as 0 (R71). -/
theorem packPayload_first (b : List Byte) : (packPayload b).getD 0 0
    = payloadWord (b.getD 0 0) (b.getD 1 0) (b.getD 2 0) (b.getD 3 0) := by
  match b with
  | [] => rfl
  | [_] => rfl
  | [_, _] => rfl
  | [_, _, _] => rfl
  | _ :: _ :: _ :: _ :: _ => rfl

/-- The words after the first pack the bytes after the first four (R71). -/
theorem packPayload_later (b : List Byte) (w : Nat) :
    (packPayload b).getD (w + 1) 0 = (packPayload (b.drop 4)).getD w 0 := by
  match b with
  | [] => rfl
  | [_] => rfl
  | [_, _] => rfl
  | [_, _, _] => rfl
  | _ :: _ :: _ :: _ :: _ => rfl

/-- Byte `j` of word `w` is byte `4 * w + j` of the payload, or 0 beyond it (R71). -/
theorem packPayload_byte (b : List Byte) (w : Nat) {j : Nat} (hj : j < 4) :
    ((packPayload b).getD w 0).extractLsb' (8 * j) 8 = b.getD (4 * w + j) 0 := by
  induction w generalizing b with
  | zero => rw [packPayload_first, payloadWord_byte (fun k => b.getD k 0) hj, Nat.mul_zero, Nat.zero_add]
  | succ w ih =>
    have hplace : 4 + (4 * w + j) = 4 * (w + 1) + j := by omega
    rw [packPayload_later, ih]
    simp only [List.getD_eq_getElem?_getD, List.getElem?_drop, hplace]

/-- How many words a payload takes (R71). -/
theorem packPayload_length (b : List Byte) : (packPayload b).length = (b.length + 3) / 4 := by
  induction b using packPayload.induct with
  | case1 => simp [packPayload]
  | case2 b0 => simp [packPayload]
  | case3 b0 b1 => simp [packPayload]
  | case4 b0 b1 b2 => simp [packPayload]
  | case5 b0 b1 b2 b3 rest ih =>
    simp only [packPayload, List.length_cons, ih]
    omega

/-- Settles O19: `packPayload_length`; `packPayload_byte` at word `k / 4`, place `k % 4`; and the cursor word as a
position word. -/
theorem payloadPacking : Obligations.PayloadPacking := by
  unfold Obligations.PayloadPacking
  refine ⟨packPayload_length, fun b k => ?_, fun c => ⟨posY_positionWord c.x c.y, posX_positionWord c.x c.y⟩⟩
  rw [packPayload_byte b (k / 4) (Nat.mod_lt k (by decide)), Nat.div_add_mod]

end Sys2Proof.Machine
end

section
/-! SUPPORT. The font catalog (`40_font_catalog.md`): what resolving a font and a character answers, case by case, what
the three queries leave, and how the words of a query are decoded. -/

namespace Sys2Proof

/-- A header with the fields of a row has its operands read in that row's layout (R67, R68). -/
theorem decode_of_fieldsOk {op : Op} {h : Word} (hf : op.fieldsOk h) (q : List Word) :
    decode (h :: q) = decodeOperands op h q := by
  obtain ⟨r, hs, rfl, -⟩ := selectRow_of_fieldsOk hf
  simp only [decode, hs]

theorem decode_glyphFor (font : FontSel) (ch : CharCode) (q : List Word) :
    decode (headerWord 0x01 font 0 :: ch :: q) = .ok (.glyphFor font ch, q) := by
  rw [decode_of_fieldsOk (op := .glyphFor) (by simp [Op.fieldsOk])]
  simp [decodeOperands]

theorem decode_glyphWidth (font : FontSel) (ch : CharCode) (q : List Word) :
    decode (headerWord 0x02 font 0 :: ch :: q) = .ok (.glyphWidth font ch, q) := by
  rw [decode_of_fieldsOk (op := .glyphWidth) (by simp [Op.fieldsOk])]
  simp [decodeOperands]

theorem decode_fontHeight (font : FontSel) (q : List Word) :
    decode (headerWord 0x03 font 0 :: q) = .ok (.fontHeight font, q) := by
  rw [decode_of_fieldsOk (op := .fontHeight) (by simp [Op.fieldsOk])]
  simp [decodeOperands]

end Sys2Proof

namespace Sys2Proof.Machine

/-! ### Resolving a font -/

/-- Selectors rise strictly, so the first descriptor filed under a selector is the only one (R7, R91). -/
theorem findFont_of_mem {fsel : FontSel} {fonts : List (FontSel × Font)} {F : Font}
    (hrising : (fonts.map fun e => e.1.toNat).Pairwise (· < ·)) (hmem : (fsel, F) ∈ fonts) :
    findFont fsel fonts = some F := by
  induction fonts with
  | nil => cases hmem
  | cons e fonts ih =>
    obtain ⟨k, G⟩ := e
    obtain ⟨hfirst, hrest⟩ := List.pairwise_cons.1 hrising
    rcases List.mem_cons.1 hmem with heq | hlater
    · cases heq
      exact if_pos rfl
    · have hne : k ≠ fsel := by
        rintro rfl
        exact Nat.lt_irrefl _ (hfirst _ (List.mem_map.2 ⟨_, hlater, rfl⟩))
      rw [findFont, if_neg hne]
      exact ih hrest hlater

/-- Resolution finds exactly the descriptors of `FONTS` (R91). -/
theorem resolveFont_eq_some_iff {cfg : Cfg} {font : FontSel} {F : Font} :
    resolveFont cfg font = some F ↔ (font, F) ∈ cfg.data.fonts := by
  obtain ⟨-, -, -, -, -, hrising, -⟩ := cfg.facts
  exact ⟨findFont_mem, findFont_of_mem hrising⟩

/-- Settles O21: `resolveFont_eq_some_iff`, and an unconfigured font ends each command in `withFont` or `withGlyph`,
before its body; `DRAW_STRING` has then only set its cursor and count. -/
theorem fontIsResolvedFirst : Obligations.FontIsResolvedFirst := by
  unfold Obligations.FontIsResolvedFirst
  refine ⟨fun _ _ _ => resolveFont_eq_some_iff, fun s font hfont => ⟨?_, ?_, ?_, ?_, ?_⟩⟩
  · exact fun _ => withGlyph_unconfigured hfont
  · exact fun _ => withGlyph_unconfigured hfont
  · exact withFont_none hfont
  · exact fun _ _ _ => withGlyph_unconfigured hfont
  · exact fun x y _ => withFont_none (s := startString x y s) hfont

/-! ### Looking a character up -/

/-- A code listed once is found at its position (R92). -/
theorem scanCodes_of_getElem? {ch : CharCode} {codes : List CharCode} (hnodup : codes.Nodup) {k : Nat}
    (hk : codes[k]? = some ch) : scanCodes ch codes 0 = some k := by
  cases hscan : scanCodes ch codes 0 with
  | none => exact absurd (List.mem_of_getElem? hk) (scanCodes_none.1 hscan)
  | some n =>
    obtain ⟨m, rfl, hm⟩ := scanCodes_some hscan
    have hlt : k < codes.length := (List.getElem?_eq_some_iff.1 hk).1
    rw [Nat.zero_add, (List.getElem?_inj hlt hnodup).1 (hk.trans hm.symm)]

theorem glyphIndex_control (F : Font) {ch : CharCode} (h : ch.toNat < 0x20) : glyphIndex F ch = none := if_pos h

theorem glyphIndex_printable (F : Font) {ch : CharCode} (hlo : 0x20 ≤ ch.toNat) (hhi : ch.toNat ≤ 0x7E) :
    glyphIndex F ch = some (.ascii, ch.toNat - 0x20) :=
  (if_neg (Nat.not_lt.2 hlo)).trans (if_pos hhi)

/-- Beyond the printable range the extra codes are scanned (R92). -/
theorem glyphIndex_high (F : Font) {ch : CharCode} (h : 0x7E < ch.toNat) :
    glyphIndex F ch = (scanCodes ch F.extraCodes 0).map fun k => (.extra, k) := by
  have hlo : ¬ ch.toNat < 0x20 := by omega
  exact (if_neg hlo).trans (if_neg (Nat.not_le.2 h))

theorem glyphIndex_unlisted {F : Font} {ch : CharCode} (h : 0x7E < ch.toNat) (hch : ch ∉ F.extraCodes) :
    glyphIndex F ch = none := by
  rw [glyphIndex_high F h, scanCodes_none.2 hch, Option.map_none]

/-- A configured font lists only codes from 0x80 up, so a listed code is never one of the printable range (R8, R92). -/
theorem glyphIndex_listed {fsel : FontSel} {F : Font} (hF : F.Facts fsel) {ch : CharCode} {k : Nat}
    (hk : F.extraCodes[k]? = some ch) : glyphIndex F ch = some (.extra, k) := by
  have hhigh := hF.codes_high ch (List.mem_of_getElem? hk)
  rw [glyphIndex_high F (by omega), scanCodes_of_getElem? hF.codes_nodup hk, Option.map_some]

/-- 0x7F is no printable character and no font may list it (R92). -/
theorem glyphIndex_delete {fsel : FontSel} {F : Font} (hF : F.Facts fsel) {ch : CharCode} (h : ch.toNat = 0x7F) :
    glyphIndex F ch = none := by
  refine glyphIndex_unlisted (by omega) fun hch => ?_
  have hhigh := hF.codes_high ch hch
  omega

/-- Settles O22: one rule of `glyphIndex` for each case, and `lookup` as `glyphIndex` decides. -/
theorem lookupAnswers : Obligations.LookupAnswers := by
  unfold Obligations.LookupAnswers
  intro cfg font F ch hfont
  have hF := resolveFont_facts hfont
  exact ⟨glyphIndex_control F, glyphIndex_printable F, glyphIndex_delete hF, fun _ => glyphIndex_listed hF,
    glyphIndex_unlisted, fun s hg => lookup_eq_none hg s, fun s _ _ hg => lookup_eq_some hF hg s⟩

/-- A cell of a glyph is one of its `gsize` bytes (R93). -/
theorem glyphOffset_lt {F : Font} {i j : Nat} (hi : i < F.rows) (hj : j < F.cols) : i * F.cols + j < F.gsize := by
  have hrow : (i + 1) * F.cols ≤ F.rows * F.cols := Nat.mul_le_mul_right _ hi
  rw [Nat.succ_mul] at hrow
  unfold Font.gsize
  omega

/-- Settles O23: a cell lies within the glyph (`glyphOffset_lt`) and the glyph within its table
(`glyphIndex_bounds`). -/
theorem glyphHasItsSize : Obligations.GlyphHasItsSize := by
  unfold Obligations.GlyphHasItsSize
  intro cfg font F ch t k hfont hg
  refine ⟨rfl, fun i j hi hj => ?_⟩
  obtain ⟨-, hglyph⟩ := glyphIndex_bounds (resolveFont_facts hfont) hg
  have hcell := glyphOffset_lt hi hj
  have hlt : k * F.gsize + (i * F.cols + j) < (tableBytes F t).length := by omega
  refine ⟨_, Glyph.read_ok (g := ⟨tableBytes F t, k * F.gsize⟩) hlt, ?_⟩
  rw [List.getElem?_eq_getElem hlt, List.getD_eq_getElem _ _ hlt]

/-! ### The queries -/

/-- Two byte fields of `VAL`: the low one fits its byte, so they do not overlap (R72). -/
theorem ofNat_shiftLeft_or (hi : Nat) {lo : Nat} (hlo : lo < 256) :
    BitVec.ofNat 16 hi <<< 8 ||| BitVec.ofNat 16 lo = BitVec.ofNat 16 (hi * 256 + lo) := by
  have hfields : hi * 256 + lo = hi <<< 8 ||| lo := by
    rw [← Nat.shiftLeft_add_eq_or_of_lt (i := 8) hlo, Nat.shiftLeft_eq]
  have hshift : BitVec.ofNat 16 hi <<< 8 = BitVec.ofNat 16 (hi <<< 8) :=
    BitVec.eq_of_toNat_eq (by simp [Nat.shiftLeft_eq])
  rw [hfields, hshift, BitVec.ofNat_or]

/-- The columns of a configured font fit one byte (R8, R96). -/
theorem shapeVal_eq {fsel : FontSel} {F : Font} (hF : F.Facts fsel) :
    shapeVal F = BitVec.ofNat 16 (F.rows * 256 + F.cols) :=
  ofNat_shiftLeft_or F.rows (Nat.lt_succ_of_le hF.cols_le)

/-- `GLYPH_FOR` of a character that has a glyph (R96). -/
theorem execGlyphFor_glyph {font : FontSel} {ch : CharCode} {s : State} {F : Font} {t : Table} {k : Nat}
    (hfont : resolveFont s.cfg font = some F) (hg : glyphIndex F ch = some (t, k)) :
    execGlyphFor font ch s = .next ((s.setGi (BitVec.ofNat 8 k)).respond
      { opc := Op.glyphFor.code, status := .ok, val := BitVec.ofNat 16 (F.rows * 256 + F.cols), cursor := none
        payload := (List.range F.gsize).map fun n => (tableBytes F t).getD (k * F.gsize + n) 0 }) := by
  have hF := resolveFont_facts hfont
  rw [execGlyphFor, withGlyph_some hfont hg]
  simp only [readSpan_glyph hF hg, shapeVal_eq hF]

/-- Settles O24: `decode_glyphFor`, and `execGlyphFor_glyph` where there is a glyph. -/
theorem glyphForReturnsTheGlyph : Obligations.GlyphForReturnsTheGlyph := by
  unfold Obligations.GlyphForReturnsTheGlyph
  intro s font ch
  refine ⟨decode_glyphFor font ch, ?_⟩
  split
  · next hfont => exact withGlyph_unconfigured hfont
  · next F hfont =>
    split
    · next hg => exact withGlyph_notRepresentable hfont hg
    · next t k hg => exact execGlyphFor_glyph hfont hg

/-- Settles O25: `decode_glyphWidth`, and the width of a configured font, whichever glyph the lookup found. -/
theorem glyphWidthReturnsTheFontsWidth : Obligations.GlyphWidthReturnsTheFontsWidth := by
  unfold Obligations.GlyphWidthReturnsTheFontsWidth
  intro s font ch
  refine ⟨decode_glyphWidth font ch, ?_⟩
  split
  · next hfont => exact withGlyph_unconfigured hfont
  · next F hfont =>
    split
    · next hg => exact withGlyph_notRepresentable hfont hg
    · next t k hg =>
      have hwidth : F.width ≤ 255 := (resolveFont_facts hfont).cols_le
      exact ⟨Nat.lt_succ_of_le hwidth, withGlyph_some hfont hg⟩

/-- Settles O26: `decode_fontHeight`, and R8 for the height of the descriptor filed under the selector. -/
theorem fontHeightReturnsTheSelector : Obligations.FontHeightReturnsTheSelector := by
  unfold Obligations.FontHeightReturnsTheSelector
  intro s font
  refine ⟨decode_fontHeight font, ?_⟩
  split
  · next hfont => exact withFont_none hfont
  · next F hfont => exact ⟨(resolveFont_facts hfont).height_eq, withFont_some hfont⟩

end Sys2Proof.Machine
end

section
/-! SUPPORT. The frame-buffer commands (`41_framebuffer_ops.md`): how their words are decoded, what a pixel write leaves
in its byte and on the display, and the cells in the order of a snapshot. -/

namespace Sys2Proof

theorem decode_clear (q : List Word) : decode (headerWord 0x10 0 0 :: q) = .ok (.clear, q) := by
  rw [decode_of_fieldsOk (op := .clear) (by simp [Op.fieldsOk])]
  rfl

/-- The level is bit 0 of the header (R67, R68). -/
theorem decode_setPixel (x y : Coord) (on : Bool) (q : List Word) :
    decode (headerWord 0x11 0 (if on then 1 else 0) :: positionWord x y :: q) = .ok (.setPixel x y on, q) := by
  have hfields : Op.setPixel.fieldsOk (headerWord 0x11 0 (if on then 1 else 0)) := by
    cases on <;> simp [Op.fieldsOk]
  have hlevel : (headerWord 0x11 0 (if on then 1 else 0)).getLsbD 0 = on := by
    cases on <;> rfl
  rw [decode_of_fieldsOk hfields]
  simp only [decodeOperands, posX_positionWord, posY_positionWord, hlevel]

end Sys2Proof

namespace Sys2Proof.Machine

/-! ### One pixel -/

/-- Of the eight pixels of a byte, exactly the one at `off` takes the value `on` (R112). -/
theorem pixelByte_getLsbD (old : Byte) (on : Bool) {off n : Nat} (hoff : off < 8) (hn : n < 8) :
    (pixelByte old off on).getLsbD n = if n = off then on else old.getLsbD n := by
  have hbit : (1#8 <<< off).getLsbD n = decide (n = off) := by
    rw [← BitVec.twoPow_eq, BitVec.getLsbD_twoPow]
    simp [hoff, eq_comm]
  have hones : (0xFF#8).getLsbD n = true := (BitVec.getLsbD_allOnes (v := 8)).trans (decide_eq_true hn)
  cases on with
  | true =>
    simp only [pixelByte, if_true, BitVec.getLsbD_or, hbit]
    by_cases h : n = off <;> simp [h]
  | false =>
    simp only [pixelByte, Bool.false_eq_true, if_false, BitVec.getLsbD_and, BitVec.getLsbD_xor, hbit, hones]
    by_cases h : n = off <;> simp [h]

/-- The frame buffer after pixel `(x, y)` of the display is set or cleared (R112). -/
def State.pixelMem (s : State) (x y : Nat) (on : Bool) : Memory :=
  s.fb.write (cellAddr s.cfg (y / 8) x) (pixelByte (s.cell (y / 8) x) (y % 8) on)

theorem execSetPixel_pixelMem {x y : Coord} {on : Bool} {s : State} (hx : x.toNat < s.cfg.width)
    (hy : y.toNat < s.cfg.height) : execSetPixel x y on s
      = .next (((s.setRow y).setFb (s.pixelMem x.toNat y.toNat on)).respond pixelDone) :=
  execSetPixel_inside hx hy

/-- Only the byte that holds the pixel is written (R112). -/
theorem State.pixelMem_read {s : State} (hfb : s.fb.wf) (x y : Nat) (on : Bool) (a : Nat) :
    (s.pixelMem x y on).read a = if a = cellAddr s.cfg (y / 8) x then pixelByte (s.cell (y / 8) x) (y % 8) on
      else s.fb.read a :=
  Memory.read_write hfb _ _ a

/-- Only the pixel itself changes: another pixel lies in another byte, or at another bit of the same one (R43, R112). -/
theorem State.pixelMem_pixel {s : State} (hfb : s.fb.wf) {x x' : Nat} (y y' : Nat) (on : Bool) (hx : x < s.cfg.width)
    (hx' : x' < s.cfg.width) : (s.setFb (s.pixelMem x y on)).pixel x' y'
      = if x' = x ∧ y' = y then on else s.pixel x' y' := by
  have hread : (s.setFb (s.pixelMem x y on)).pixel x' y'
      = ((s.pixelMem x y on).read (cellAddr s.cfg (y' / 8) x')).getLsbD (y' % 8) := rfl
  rw [hread, State.pixelMem_read hfb]
  by_cases hbyte : y' / 8 = y / 8 ∧ x' = x
  · obtain ⟨hpage, rfl⟩ := hbyte
    have hrow : y' % 8 = y % 8 ↔ x' = x' ∧ y' = y := by omega
    rw [hpage, if_pos rfl, pixelByte_getLsbD _ on (Nat.mod_lt y (by decide)) (Nat.mod_lt y' (by decide))]
    simp only [hrow, State.pixel, hpage]
  · have haddr : cellAddr s.cfg (y' / 8) x' ≠ cellAddr s.cfg (y / 8) x := fun h => hbyte <| by
      simpa only [cellAddr_div hx', cellAddr_mod hx'] using (cellAddr_eq_iff hx).1 h
    have hpixel : ¬ (x' = x ∧ y' = y) := by
      rintro ⟨rfl, rfl⟩
      exact hbyte ⟨rfl, rfl⟩
    rw [if_neg haddr, if_neg hpixel]
    rfl

/-- Settles O30: `decode_setPixel`; `execSetPixel_outside`; and inside the display `execSetPixel_pixelMem`, whose memory
is read byte by byte (`State.pixelMem_read`) and pixel by pixel (`State.pixelMem_pixel`). -/
theorem setPixelWritesOnePixel : Obligations.SetPixelWritesOnePixel := by
  unfold Obligations.SetPixelWritesOnePixel
  rintro s x y on ⟨hfb, -, -⟩
  refine ⟨decode_setPixel x y on, execSetPixel_outside, fun hx hy => ?_⟩
  refine ⟨s.pixelMem x.toNat y.toNat on, execSetPixel_pixelMem hx hy, ?_, fun a ha => ?_, fun x' y' hx' _ => ?_⟩
  · exact (State.pixelMem_read hfb _ _ on _).trans (if_pos rfl)
  · exact (State.pixelMem_read hfb _ _ on a).trans (if_neg ha)
  · exact State.pixelMem_pixel hfb y.toNat y' on hx hx'

/-! ### The whole buffer -/

/-- Every address is that of the cell at its page and column (R41). -/
theorem cellAddr_div_mod (cfg : Cfg) (a : Nat) : cellAddr cfg (a / cfg.width) (a % cfg.width) = a :=
  Nat.div_add_mod' a cfg.width

/-- The bytes in the order of their addresses are the cells page by page (R118). -/
theorem allBytes_eq_cells (s : State) : allBytes s
    = (List.range (s.cfg.pages * s.cfg.width)).map fun k => s.cell (k / s.cfg.width) (k % s.cfg.width) := by
  simp only [State.cell, cellAddr_div_mod]
  rfl

/-- Settles O32: the payload is `allBytes`, page by page by `allBytes_eq_cells`. -/
theorem snapshotReadsTheBuffer : Obligations.SnapshotReadsTheBuffer := by
  unfold Obligations.SnapshotReadsTheBuffer
  intro s
  rw [← allBytes_eq_cells]
  rfl

/-- In the canonical form a memory that reads 0 everywhere lists nothing. -/
theorem Memory.eq_nil_of_read_zero {m : Memory} (hm : m.wf) (hzero : ∀ a, m.read a = 0) : m = [] :=
  Memory.ext_read hm ⟨.nil, fun _ he => nomatch he⟩ hzero

/-- A snapshot of a buffer that reads 0 everywhere is all 0 (R110, R118). -/
theorem allBytes_of_read_zero {s : State} (hzero : ∀ a, s.fb.read a = 0) :
    allBytes s = List.replicate (s.cfg.pages * s.cfg.width) 0 := by
  have hread : s.fb.read = fun _ => 0 := funext hzero
  rw [allBytes, hread, List.map_const', List.length_range]
  rfl

/-- Settles O29: `decode_clear`; the memory that lists nothing, which a zero buffer already was
(`Memory.eq_nil_of_read_zero`); and a snapshot of it by `allBytes_of_read_zero`. -/
theorem clearZeroesTheBuffer : Obligations.ClearZeroesTheBuffer := by
  unfold Obligations.ClearZeroesTheBuffer
  refine ⟨decode_clear, fun s => ?_⟩
  refine ⟨[], Memory.read_nil, fun hfb hzero => (Memory.eq_nil_of_read_zero hfb hzero).symm, ?_⟩
  refine ⟨_, _, rfl, rfl, rfl, ?_⟩
  rw [State.respond_rspQ, List.getLast?_concat, Option.map_some, allBytes_of_read_zero Memory.read_nil]
  rfl

end Sys2Proof.Machine
end

section
/-! SUPPORT. The compositor (`42_compositor.md`): which cells a blit reaches and what it leaves in them, and how the
loop of `DRAW_STRING` passes from the characters that have glyphs to those after them. -/

namespace Sys2Proof.Machine

/-! ### One glyph -/

/-- `DRAW_GLYPH` of a character that has a glyph (R132). -/
theorem execDrawGlyph_glyph {x y : Coord} {font : FontSel} {ch : CharCode} {s : State} {F : Font} {t : Table} {k : Nat}
    (hfont : resolveFont s.cfg font = some F) (hg : glyphIndex F ch = some (t, k)) :
    execDrawGlyph x y font ch s
      = .next (((s.setFb (blitMem s.cfg F.rows F.cols (glyphCell F t k) x.toNat y.toNat s.fb)).setWork
          (blitWork F y (s.setGi (BitVec.ofNat 8 k)).work)).respond
        { opc := Op.drawGlyph.code, status := .ok, val := advanceVal F, cursor := none, payload := [] }) := by
  rw [execDrawGlyph, withGlyph_some hfont hg]
  simp only [blit_eq (resolveFont_facts hfont) hg]
  rfl

/-- On the glyph's own pages a cell takes the low half of its byte (R133, R136). -/
theorem stamp_own {rows cols i j : Nat} (G : Nat → Nat → Byte) (x y : Nat) (hi : i < rows) (hj : j < cols) :
    stamp rows cols G x y (y / 8 + i) (x + j) = some (lowHalf (y % 8) (G i j)) := by
  have hin : x ≤ x + j ∧ x + j < x + cols ∧ y / 8 ≤ y / 8 + i := by omega
  rw [stamp, if_pos hin, Nat.add_sub_cancel_left, Nat.add_sub_cancel_left, if_pos hi]

/-- The footprint of a blit: the glyph's own cells and, where it straddles, those of the page below (R133, R137). -/
theorem stamp_footprint {rows cols : Nat} {G : Nat → Nat → Byte} {x y p c : Nat} {b : Byte}
    (h : stamp rows cols G x y p c = some b) :
    ∃ i j, (i < rows ∨ i = rows ∧ y % 8 ≠ 0) ∧ j < cols ∧ p = y / 8 + i ∧ c = x + j := by
  refine ⟨p - y / 8, c - x, ?_⟩
  unfold stamp at h
  split at h
  · next hin =>
    split at h
    · next hrow => exact ⟨.inl hrow, by omega, by omega, by omega⟩
    · split at h
      · next hbelow => exact ⟨.inr ⟨hbelow.1, hbelow.2.1⟩, by omega, by omega, by omega⟩
      · cases h
  · cases h

/-- Every cell of the display after a blit (R131). -/
theorem blitMem_read_cell {m : Memory} (hm : m.wf) {cfg : Cfg} (rows cols : Nat) (G : Nat → Nat → Byte) (x y : Nat)
    {p c : Nat} (hp : p < cfg.pages) (hc : c < cfg.width) :
    (blitMem cfg rows cols G x y m).read (cellAddr cfg p c)
      = (stamp rows cols G x y p c).getD (m.read (cellAddr cfg p c)) := by
  rw [blitMem_read hm, cellAddr_div hc, cellAddr_mod hc, if_pos hp]

/-- A blit leaves every address outside its footprint on the display as it was (R46, R131). -/
theorem blitMem_frame {m : Memory} (hm : m.wf) {cfg : Cfg} {rows cols : Nat} (G : Nat → Nat → Byte) {x y a : Nat}
    (hout : ∀ i j, (i < rows ∨ i = rows ∧ y % 8 ≠ 0) → j < cols → y / 8 + i < cfg.pages → x + j < cfg.width →
      a ≠ cellAddr cfg (y / 8 + i) (x + j)) :
    (blitMem cfg rows cols G x y m).read a = m.read a := by
  have hcol := Nat.mod_lt a cfg.width_pos
  rw [blitMem_read hm]
  split
  · next hpage =>
    cases hstamp : stamp rows cols G x y (a / cfg.width) (a % cfg.width) with
    | none => rfl
    | some b =>
      obtain ⟨i, j, hi, hj, hp, hc⟩ := stamp_footprint hstamp
      have hx : x + j < cfg.width := hc ▸ hcol
      exact absurd ((cellAddr_eq_iff hx).2 ⟨hp, hc⟩) (hout i j hi hj (hp ▸ hpage) hx)
  · rfl

/-- Settles O36: the frame buffer is `blitMem`, whose cells `stamp_own` gives, the low half at offset 0 being the whole
byte, and which `blitMem_frame` leaves alone elsewhere: at offset 0 nothing is written below the glyph. -/
theorem alignedGlyphOnTheDisplay : Obligations.AlignedGlyphOnTheDisplay := by
  unfold Obligations.AlignedGlyphOnTheDisplay
  rintro s x y font F ch t k ⟨hfb, -, -⟩ hfont hg haligned
  refine ⟨_, execDrawGlyph_glyph hfont hg, fun i j hi hj hp hc => ?_, fun a hout => ?_⟩
  · refine (blitMem_read_cell hfb F.rows F.cols _ x.toNat y.toNat hp hc).trans ?_
    rw [stamp_own _ _ _ hi hj, haligned, lowHalf_zero]
    rfl
  · refine blitMem_frame hfb _ fun i j hi hj hp hc => hout i j ?_ hj hp hc
    exact hi.resolve_right fun hbelow => hbelow.2 haligned

/-! ### Strings -/

/-- A loop that ends with `OK` passed every character, each having a glyph (R140). -/
theorem drawChars_cons_ok {fsel : FontSel} {F : Font} (hF : F.Facts fsel) {ch : CharCode} {text : List CharCode}
    {s t : State} (h : drawChars F (ch :: text) s = .ok (.ok, t)) :
    ∃ tb k, glyphIndex F ch = some (tb, k) ∧ drawChars F text (afterChar F tb k s) = .ok (.ok, t) := by
  cases hg : glyphIndex F ch with
  | none => cases (drawChars_none hg text s).symm.trans h
  | some g => exact ⟨g.1, g.2, rfl, (drawChars_some hF hg text s).symm.trans h⟩

/-- After characters that all have glyphs the loop goes on from the state it leaves for them alone (R140, R143). -/
theorem drawChars_append {fsel : FontSel} {F : Font} (hF : F.Facts fsel) {good : List CharCode} {s t : State}
    (h : drawChars F good s = .ok (.ok, t)) (rest : List CharCode) :
    drawChars F (good ++ rest) s = drawChars F rest t := by
  induction good generalizing s with
  | nil => cases h; rfl
  | cons ch good ih =>
    obtain ⟨tb, k, hg, hlater⟩ := drawChars_cons_ok hF h
    exact (drawChars_some hF hg (good ++ rest) s).trans (ih hlater)

/-- `SI` counts the characters the loop passed, modulo its 16 bits (R25, R140). -/
theorem drawChars_si {fsel : FontSel} {F : Font} (hF : F.Facts fsel) {good : List CharCode} {s t : State}
    (h : drawChars F good s = .ok (.ok, t)) : t.work.si = s.work.si + BitVec.ofNat 16 good.length := by
  induction good generalizing s with
  | nil => cases h; exact (BitVec.add_zero _).symm
  | cons ch good ih =>
    obtain ⟨tb, k, -, hlater⟩ := drawChars_cons_ok hF h
    rw [ih hlater, afterChar_si, List.length_cons, BitVec.ofNat_add, BitVec.add_assoc, BitVec.add_comm 1]
    rfl

/-- `DRAW_STRING` in a configured font ends as its loop does (R140). -/
theorem execDrawString_drawChars {x y : Coord} {font : FontSel} {text : List CharCode} {s t : State} {F : Font}
    {st : Status} (hfont : resolveFont s.cfg font = some F)
    (h : drawChars F text (startString x y s) = .ok (st, t)) :
    execDrawString x y font text s = .next (endString (BitVec.ofNat 16 text.length) st t) := by
  rw [execDrawString, drawText, withFont_some (s := startString x y s) hfont, h]
  rfl

/-- Settles O40: the loop draws the good characters (`drawChars_completes`), goes on from that state
(`drawChars_append`) and stops at once at the next one (`drawChars_none`), with `SI` the index (`drawChars_si`). -/
theorem stringAbortsAtFirstMissingGlyph : Obligations.StringAbortsAtFirstMissingGlyph := by
  unfold Obligations.StringAbortsAtFirstMissingGlyph
  intro s x y font F good rest bad hfont hgood hbad
  have hF := resolveFont_facts hfont
  obtain ⟨st, t, hdrawn, hkept, -, hok⟩ := drawChars_completes hF good (startString x y s)
  obtain rfl := hok.2 hgood
  have hstops : drawChars F (good ++ bad :: rest) (startString x y s) = .ok (.notRepresentable, t) :=
    (drawChars_append hF hdrawn (bad :: rest)).trans (drawChars_none hbad rest t)
  have hcount : t.work.si = BitVec.ofNat 16 good.length := (drawChars_si hF hdrawn).trans (BitVec.zero_add _)
  have hrsp : t.rspQ = s.rspQ := hkept.rspQ
  refine ⟨_, _, t.cursor, execDrawString_drawChars hfont hdrawn, ?_, execDrawString_drawChars hfont hstops, rfl, ?_⟩
  · rw [← hrsp]
    rfl
  · rw [← hrsp, ← hcount]
    rfl

end Sys2Proof.Machine
end

section
/-! SUPPORT. The LineBuffer companion (`48_linebuffer_companion.md`): the line ensured before each character, the line
feed, and the head line after padding and after a write, position by position. -/

namespace Sys2Proof.Machine

/-- The line ensured before a character's own rule (R163). -/
theorem ensureLine_eq (lines : List (List CharCode)) :
    ensureLine lines = if lines = [] then [[]] else lines := by
  cases lines <;> rfl

theorem ensureLine_length_le {lines : List (List CharCode)} {m : Nat} (hpos : 1 ≤ m) (hlen : lines.length ≤ m) :
    (ensureLine lines).length ≤ m := by
  cases lines with
  | nil => exact hpos
  | cons l ls => exact hlen

/-! ### What `PushChar` does with each character (R162) -/

theorem LineBuffer.pushChar_lineFeed (lb : LineBuffer) : lb.pushChar lineFeed = lb.feed := rfl

theorem LineBuffer.pushChar_carriageReturn (lb : LineBuffer) :
    lb.pushChar carriageReturn = ⟨ensureLine lb.lines, lb.lenMax, 0⟩ := rfl

theorem LineBuffer.pushChar_other {ch : CharCode} (hlf : ch ≠ lineFeed) (hcr : ch ≠ carriageReturn)
    (lb : LineBuffer) : lb.pushChar ch = lb.write ch := by
  rw [pushChar, if_neg hlf, if_neg hcr]

/-- Evicting the tail once is cutting to `m`, where there is at most one line too many (R164). -/
theorem evictTail_eq_take {lines : List (List CharCode)} {m : Nat} (hlen : lines.length ≤ m + 1) :
    (if m < lines.length then lines.dropLast else lines) = lines.take m := by
  split
  next hover =>
    have hfull : lines.length = m + 1 := Nat.le_antisymm hlen hover
    rw [List.dropLast_eq_take, hfull, Nat.add_sub_cancel]
  next hroom => exact (List.take_of_length_le (Nat.le_of_not_lt hroom)).symm

theorem LineBuffer.feed_eq {lb : LineBuffer} (hlen : (ensureLine lb.lines).length ≤ lb.lenMax) :
    lb.feed = ⟨([] :: ensureLine lb.lines).take lb.lenMax, lb.lenMax, 0⟩ := by
  rw [feed, evictTail_eq_take (Nat.succ_le_succ hlen)]

/-! ### The head line (R166) -/

theorem padLine_length (head : List CharCode) (index : Nat) :
    (padLine head index).length = max head.length index := by
  rw [padLine, List.length_append, List.length_replicate]
  omega

theorem padLine_getElem? (head : List CharCode) (index n : Nat) : (padLine head index)[n]? =
    if n < head.length then head[n]? else if n < index then some padSpace else none := by
  rw [padLine, List.getElem?_append, List.getElem?_replicate]
  split
  next => rfl
  next hn =>
    have hpad : n - head.length < index - head.length ↔ n < index := by omega
    simp only [hpad]

theorem writeAt_length {head : List CharCode} {index : Nat} (hle : index ≤ head.length) (ch : CharCode) :
    (writeAt head index ch).length = max head.length (index + 1) := by
  rw [writeAt]
  split
  · rw [List.length_set]
    omega
  · rw [List.length_append, List.length_singleton]
    omega

theorem writeAt_getElem? {head : List CharCode} {index : Nat} (hle : index ≤ head.length) (ch : CharCode)
    (n : Nat) : (writeAt head index ch)[n]? = if n = index then some ch else head[n]? := by
  rw [writeAt]
  split
  next hlt => rw [List.getElem?_set_of_lt' ch head hlt, if_congr eq_comm rfl rfl]
  next hge =>
    obtain rfl : index = head.length := by omega
    rcases Nat.lt_trichotomy n head.length with hold | rfl | hbeyond
    · rw [List.getElem?_append_left hold, if_neg hold.ne]
    · rw [List.getElem?_concat_length, if_pos rfl]
    · rw [if_neg hbeyond.ne', List.getElem?_eq_none hbeyond.le, List.getElem?_eq_none]
      exact (List.length_append ..).trans_le hbeyond

theorem LineBuffer.write_eq {lb : LineBuffer} {head : List CharCode} {older : List (List CharCode)}
    (h : ensureLine lb.lines = head :: older) (ch : CharCode) : lb.write ch
      = ⟨writeAt (padLine head lb.index) lb.index ch :: older, lb.lenMax, lb.index + 1⟩ := by
  rw [write, h]

/-- Settles O48: `feed_eq`, whose lines `List.take` bounds by `len_max`. -/
theorem lineFeedInsertsAndEvicts : Obligations.LineFeedInsertsAndEvicts := by
  unfold Obligations.LineFeedInsertsAndEvicts
  intro lb hpos hlen
  rw [LineBuffer.pushChar_lineFeed, LineBuffer.feed_eq (ensureLine_length_le hpos hlen), ← ensureLine_eq]
  exact ⟨rfl, rfl, rfl, List.length_take_le _ _⟩

/-- Settles O50: the padded line reaches the cursor, so the write there replaces one position or adds one, and the
positions beside it are the padded line's. -/
theorem characterIsWrittenAtTheCursor : Obligations.CharacterIsWrittenAtTheCursor := by
  unfold Obligations.CharacterIsWrittenAtTheCursor
  intro lb head older ch hlf hcr hlines
  rw [← ensureLine_eq] at hlines
  have hreach : lb.index ≤ (padLine head lb.index).length := by
    rw [padLine_length]
    exact Nat.le_max_right _ _
  refine ⟨_, (LineBuffer.pushChar_other hlf hcr lb).trans (LineBuffer.write_eq hlines ch), ?_, fun n => ?_⟩
  · rw [writeAt_length hreach, padLine_length]
    omega
  · rw [writeAt_getElem? hreach, padLine_getElem?]
    rfl

/-- Settles O49: the lines are the ensured ones. -/
theorem carriageReturnKeepsTheLine : Obligations.CarriageReturnKeepsTheLine := by
  unfold Obligations.CarriageReturnKeepsTheLine
  intro lb
  rw [LineBuffer.pushChar_carriageReturn, ensureLine_eq]

end Sys2Proof.Machine
end

section
/-! SUPPORT. The decoder and the encoder as inverses (`30_encoding.md` R62 to R69), the headers that are illegal, and
the three things a queue can hold at its head. -/

namespace Sys2Proof

/-! ### From a command to its words and back -/

theorem decode_drawGlyph (x y : Coord) (font : FontSel) (ch : CharCode) (q : List Word) :
    decode (headerWord 0x12 font 0 :: positionWord x y :: ch :: q) = .ok (.drawGlyph x y font ch, q) := by
  rw [decode_of_fieldsOk (op := .drawGlyph) (by simp [Op.fieldsOk])]
  simp [decodeOperands]

/-- The count of the header is the length of the text, which fits its 16 bits (R68). -/
theorem decode_drawString (x y : Coord) (font : FontSel) {text : List CharCode} (hlen : text.length ≤ maxText)
    (q : List Word) :
    decode (headerWord 0x13 font (BitVec.ofNat 16 text.length) :: positionWord x y :: (text ++ q))
      = .ok (.drawString x y font text, q) := by
  have hcount : (BitVec.ofNat 16 text.length).toNat = text.length := by
    unfold maxText at hlen
    rw [BitVec.toNat_ofNat]
    omega
  have hwords : hasWords text.length (text ++ q) = true := by
    rw [hasWords_iff, List.length_append]
    omega
  rw [decode_of_fieldsOk (op := .drawString) (by simp [Op.fieldsOk])]
  simp only [decodeOperands, headerArg_headerWord, headerFsel_headerWord, posX_positionWord, posY_positionWord, hcount,
    hwords, if_true, List.take_left, List.drop_left]

theorem decode_snapshot (q : List Word) : decode (headerWord 0x14 0 0 :: q) = .ok (.snapshot, q) := by
  rw [decode_of_fieldsOk (op := .snapshot) (by simp [Op.fieldsOk])]
  rfl

/-- Every well-formed command is decoded from its own words (R62 to R68). -/
theorem decode_encode {i : Instr} (hwf : i.wf = true) (rest : List Word) :
    decode (encode i ++ rest) = .ok (i, rest) := by
  cases i with
  | glyphFor font ch => exact decode_glyphFor font ch rest
  | glyphWidth font ch => exact decode_glyphWidth font ch rest
  | fontHeight font => exact decode_fontHeight font rest
  | clear => exact decode_clear rest
  | setPixel x y on => exact decode_setPixel x y on rest
  | drawGlyph x y font ch => exact decode_drawGlyph x y font ch rest
  | drawString x y font text => exact decode_drawString x y font (of_decide_eq_true hwf) rest
  | snapshot => exact decode_snapshot rest

/-- Settles O1: `decode_encode`. -/
theorem decodeEncodeRoundTrip : Obligations.DecodeEncodeRoundTrip := by
  unfold Obligations.DecodeEncodeRoundTrip
  exact fun _ rest hwf => decode_encode hwf rest

/-! ### From the words of a queue to a command and back -/

/-- A header whose opcode is known is rebuilt from it and its other two fields (R62). -/
theorem header_eq {h : Word} {o : BitVec 8} (ho : headerOpc h = o) :
    h = headerWord o (headerFsel h) (headerArg h) := by
  rw [← ho, headerWord_fields]

/-- The mask of `SET_PIXEL` leaves every bit of `ARG` but bit 0 (R67). -/
theorem maskedArg_eq_zero_iff (a : BitVec 16) : a &&& 0xFFFE = 0 ↔ ∀ n, a.getLsbD (n + 1) = false := by
  have hmask : ∀ n < 16, (0xFFFE#16).getLsbD n = decide (n ≠ 0) := by decide
  constructor
  · intro hzero n
    by_cases hn : n + 1 < 16
    · simpa [hmask _ hn] using congrArg (·.getLsbD (n + 1)) hzero
    · exact BitVec.getLsbD_of_ge _ _ (Nat.le_of_not_lt hn)
  · intro hbits
    refine BitVec.eq_of_getLsbD_eq fun n hn => ?_
    cases n with
    | zero => simp
    | succ n => simp [hbits n]

/-- `ARG[15:1]` holds every bit of `ARG` but bit 0 (R69). -/
theorem upperArg_eq_zero_iff (a : BitVec 16) : a.extractLsb' 1 15 = 0#15 ↔ a &&& 0xFFFE#16 = 0#16 := by
  refine Iff.trans ?_ (maskedArg_eq_zero_iff a).symm
  constructor
  · intro hzero n
    by_cases hn : n < 15
    · simpa [hn, Nat.add_comm] using congrArg (·.getLsbD n) hzero
    · exact BitVec.getLsbD_of_ge _ _ (by omega)
  · intro hbits
    refine BitVec.eq_of_getLsbD_eq fun n _ => ?_
    simp [Nat.add_comm 1 n, hbits n]

/-- With the other bits 0, `SET_PIXEL`'s `ARG` is its level (R67, R68). -/
theorem levelArg_eq {h : Word} (harg : headerArg h &&& 0xFFFE = 0) :
    headerArg h = if h.getLsbD 0 then 1 else 0 := by
  have hlevel : h.getLsbD 0 = (headerArg h).getLsbD 0 := by simp [headerArg]
  rw [hlevel]
  refine BitVec.eq_of_getLsbD_eq fun n _ => ?_
  cases n with
  | zero => cases (headerArg h).getLsbD 0 <;> rfl
  | succ n =>
    rw [(maskedArg_eq_zero_iff _).1 harg n]
    split <;> simp

/-- The words a row's operands are read from are the words of the command read (R65 to R69). -/
theorem decodeOperands_ok {op : Op} {h : Word} {q rest : List Word} {i : Instr} (hf : op.fieldsOk h)
    (hd : decodeOperands op h q = .ok (i, rest)) : i.wf = true ∧ h :: q = encode i ++ rest := by
  have hhead := header_eq (Op.fieldsOk_code hf)
  cases op with
  | glyphFor =>
    obtain ⟨-, harg⟩ := hf
    cases q with
    | nil => cases hd
    | cons ch q => cases hd; exact ⟨rfl, congrArg (· :: ch :: rest) (harg ▸ hhead)⟩
  | glyphWidth =>
    obtain ⟨-, harg⟩ := hf
    cases q with
    | nil => cases hd
    | cons ch q => cases hd; exact ⟨rfl, congrArg (· :: ch :: rest) (harg ▸ hhead)⟩
  | fontHeight =>
    obtain ⟨-, harg⟩ := hf
    cases hd
    exact ⟨rfl, congrArg (· :: q) (harg ▸ hhead)⟩
  | clear =>
    obtain ⟨-, hfsel, harg⟩ := hf
    cases hd
    exact ⟨rfl, congrArg (· :: q) (harg ▸ hfsel ▸ hhead)⟩
  | setPixel =>
    obtain ⟨-, hfsel, harg⟩ := hf
    cases q with
    | nil => cases hd
    | cons xy q =>
      cases hd
      refine ⟨rfl, ?_⟩
      simp only [encode, Instr.op, positionWord_fields, ← levelArg_eq harg, ← hfsel, ← hhead]
      rfl
  | drawGlyph =>
    obtain ⟨-, harg⟩ := hf
    match q with
    | [] => cases hd
    | [_] => cases hd
    | xy :: ch :: q =>
      cases hd
      refine ⟨rfl, ?_⟩
      simp only [encode, Instr.op, positionWord_fields, ← harg, ← hhead]
      rfl
  | drawString =>
    cases q with
    | nil => cases hd
    | cons xy q =>
      simp only [decodeOperands] at hd
      split at hd
      · next hwords =>
        cases hd
        have hlen := List.length_take_of_le ((hasWords_iff _ _).1 hwords)
        refine ⟨decide_eq_true ?_, ?_⟩
        · have := (headerArg h).isLt
          unfold maxText
          omega
        · simp only [encode, Instr.op, positionWord_fields, hlen, BitVec.ofNat_toNat, BitVec.setWidth_eq, ← hhead,
            List.cons_append, List.take_append_drop]
      · cases hd
  | snapshot =>
    obtain ⟨-, hfsel, harg⟩ := hf
    cases hd
    exact ⟨rfl, congrArg (· :: q) (harg ▸ hfsel ▸ hhead)⟩

/-- Words that decode to a command are its own words (R62 to R69). -/
theorem eq_encode_of_decode {q rest : List Word} {i : Instr} (hd : decode q = .ok (i, rest)) :
    i.wf = true ∧ q = encode i ++ rest := by
  cases q with
  | nil => cases hd
  | cons h q =>
    cases hs : selectRow h with
    | none => simp [decode, hs] at hd
    | some r =>
      have hf := (fieldsOk_of_selectRow hs).1
      exact decodeOperands_ok hf ((decode_of_fieldsOk hf q).symm.trans hd)

/-- Settles O2: `eq_encode_of_decode`, row by row in `decodeOperands_ok`. -/
theorem decodedWordsAreTheEncoding : Obligations.DecodedWordsAreTheEncoding := by
  unfold Obligations.DecodedWordsAreTheEncoding
  exact fun _ _ _ => eq_encode_of_decode

/-! ### Rows and illegal headers -/

/-- Settles O3: a header's opcode names the operation of every row that selects it, and no operation has two rows. -/
theorem opcodeRowsAreDisjoint : Obligations.OpcodeRowsAreDisjoint := by
  unfold Obligations.OpcodeRowsAreDisjoint
  intro h r r' hr hr' hs hs'
  have hcode := Op.fieldsOk_code ((selects_iff_fieldsOk hr h).1 hs)
  have hcode' := Op.fieldsOk_code ((selects_iff_fieldsOk hr' h).1 hs')
  have hrows : ∀ r ∈ opcodeTable, ∀ r' ∈ opcodeTable, r.op = r'.op → r = r' := by decide
  exact hrows r hr r' hr' (Op.code_injective (hcode.symm.trans hcode'))

/-- A header is illegal where its fields are those of no row (R69). -/
theorem selectRow_eq_none_iff (h : Word) : selectRow h = none ↔ ∀ op : Op, ¬ op.fieldsOk h := by
  constructor
  · intro hs op hf
    obtain ⟨r, hr, -⟩ := selectRow_of_fieldsOk hf
    cases hs.symm.trans hr
  · intro hno
    cases hs : selectRow h with
    | none => rfl
    | some r => exact absurd (fieldsOk_of_selectRow hs).1 (hno r.op)

/-- The illegal headers as R69 lists them. -/
def IllegalFields (h : Word) : Prop :=
  headerOpc h ∉ [0x01#8, 0x02#8, 0x03#8, 0x10#8, 0x11#8, 0x12#8, 0x13#8, 0x14#8]
    ∨ (headerOpc h ∈ [0x01#8, 0x02#8, 0x03#8, 0x10#8, 0x12#8, 0x14#8] ∧ headerArg h ≠ 0)
    ∨ (headerOpc h = 0x11#8 ∧ (headerArg h).extractLsb' 1 15 ≠ 0)
    ∨ (headerOpc h ∈ [0x10#8, 0x11#8, 0x14#8] ∧ headerFsel h ≠ 0)

theorem Op.forall_iff {P : Op → Prop} : (∀ op, P op) ↔ P .glyphFor ∧ P .glyphWidth ∧ P .fontHeight ∧ P .clear
    ∧ P .setPixel ∧ P .drawGlyph ∧ P .drawString ∧ P .snapshot := by
  refine ⟨fun h => ⟨h _, h _, h _, h _, h _, h _, h _, h _⟩, fun ⟨h1, h2, h3, h4, h5, h6, h7, h8⟩ op => ?_⟩
  cases op <;> assumption

/-- R69's list says that the header has the fields of no row: for a known opcode both speak of `FSEL` and `ARG`, for
any other both hold. -/
theorem illegalFields_iff (h : Word) : IllegalFields h ↔ selectRow h = none := by
  rw [selectRow_eq_none_iff]
  by_cases hopc : headerOpc h ∈ [0x01#8, 0x02#8, 0x03#8, 0x10#8, 0x11#8, 0x12#8, 0x13#8, 0x14#8]
  · rw [Op.forall_iff]
    simp only [List.mem_cons, List.not_mem_nil, or_false] at hopc
    rcases hopc with hopc | hopc | hopc | hopc | hopc | hopc | hopc | hopc
    all_goals simp [IllegalFields, Op.fieldsOk, hopc, upperArg_eq_zero_iff, imp_iff_not_or, or_comm]
  · refine ⟨fun _ op hf => hopc ?_, fun _ => .inl hopc⟩
    rw [Op.fieldsOk_code hf]
    cases op <;> decide

end Sys2Proof
end

section
/-! SUPPORT. What a command does, said once for all eight: it always completes, whatever stands in the queues; it leaves
a frame buffer, one record and working registers; and what these may be (`10_state.md` R24, R25, R29; `30_encoding.md`
R70, R72). -/

namespace Sys2Proof.Machine

/-! ### Effects -/

/-- What a command leaves behind: the frame buffer, the record it appends, the working registers. -/
structure Effect where
  fb : Memory
  record : Response
  work : Working

/-- The state after a command with the given effect. -/
def State.after (s : State) (e : Effect) : State :=
  { s with fb := e.fb, rspQ := s.rspQ ++ [e.record], work := e.work }

/-- The state with other queues. -/
def State.withQueues (s : State) (words : List Word) (records : List Response) : State :=
  { s with cmdQ := words, rspQ := records }

@[simp] theorem State.after_rspQ (s : State) (e : Effect) : (s.after e).rspQ = s.rspQ ++ [e.record] := rfl

/-- Which part of the frame buffer and of the working registers a command leaves alone (R25, R49). -/
def Effect.Frame (e : Effect) (s : State) : Instr → Prop
  | .glyphFor _ _ => e.fb = s.fb ∧ e.work = { s.work with gi := e.work.gi }
  | .glyphWidth _ _ => e.fb = s.fb ∧ e.work = { s.work with gi := e.work.gi }
  | .fontHeight _ => e.fb = s.fb ∧ e.work = s.work
  | .clear => e.work = s.work
  | .setPixel _ _ _ => e.work = { s.work with p0 := e.work.p0, off := e.work.off }
  | .drawGlyph _ _ _ _ => e.work = { e.work with curX := s.work.curX, curY := s.work.curY, si := s.work.si }
  | .drawString _ _ _ _ => True
  | .snapshot => e.fb = s.fb ∧ e.work = s.work

/-- From the configuration, frame buffer and registers of `s`, command `i` has the effect `e` whatever the queues
hold, and `e` keeps to what every command keeps to. -/
structure Effect.Of (i : Instr) (s : State) (e : Effect) : Prop where
  runs : ∀ words records, exec i (s.withQueues words records) = .next ((s.withQueues words records).after e)
  opc : e.record.opc = i.op.code
  form : e.record.wf s.cfg
  wf : s.fb.wf → e.fb.wf
  within : s.fb.within s.cfg.fbSize → e.fb.within s.cfg.fbSize
  frame : e.Frame s i

/-! ### The form of records (R72) -/

/-- A record without payload has its form where it may lack one, and where cursor word and `VAL` are as R72 asks. -/
theorem Response.wf_of_noPayload {cfg : Cfg} {r : Response} (hpayload : r.payload = [])
    (hcursor : r.cursor.isSome = true ↔ r.opc = 0x13#8) (hfail : r.status ≠ .ok → r.opc ≠ 0x13#8 → r.val = 0)
    (hok : r.status = .ok → r.opc ∈ [0x02#8, 0x03#8, 0x10#8, 0x11#8, 0x12#8, 0x13#8]) : r.wf cfg := by
  have hother : r.status = .ok → r.opc ≠ 0x01#8 ∧ r.opc ≠ 0x14#8 := by
    refine fun h => ⟨fun heq => ?_, fun heq => ?_⟩
    · exact absurd (heq ▸ hok h) (by decide)
    · exact absurd (heq ▸ hok h) (by decide)
  refine ⟨hcursor, fun h => ⟨hpayload, hfail h⟩, fun h => ?_, fun h h14 => absurd h14 (hother h).2,
    fun h h01 => absurd h01 (hother h).1, fun _ _ => hpayload⟩
  have hmem := hok h
  simp only [List.mem_cons, List.not_mem_nil, or_false] at hmem ⊢
  tauto

/-- The record of a failure other than `DRAW_STRING`'s (R72, R190). -/
theorem failureRecord_wf {cfg : Cfg} {opc : BitVec 8} {st : Status} (hst : st ≠ .ok) (hopc : opc ≠ 0x13#8) :
    (failureRecord opc st 0 none).wf cfg :=
  Response.wf_of_noPayload rfl (by simp [failureRecord, hopc]) (fun _ _ => rfl) fun h => absurd h hst

/-- A record of `DRAW_STRING`, whatever its status (R72). -/
theorem cursorRecord_wf {cfg : Cfg} (st : Status) (v : BitVec 16) (c : Cursor) :
    Response.wf cfg { opc := 0x13, status := st, val := v, cursor := some c, payload := [] } :=
  Response.wf_of_noPayload rfl (by simp) (fun _ h => absurd rfl h) fun _ => by simp

/-! ### Each command -/

/-- A command that answers with a record and does nothing else. -/
theorem Effect.Of.answer {i : Instr} {s : State} {r : Response}
    (hruns : ∀ words records, exec i (s.withQueues words records) = .next ((s.withQueues words records).respond r))
    (hopc : r.opc = i.op.code) (hform : r.wf s.cfg) : Effect.Of i s ⟨s.fb, r, s.work⟩ where
  runs := hruns
  opc := hopc
  form := hform
  wf := id
  within := id
  frame := by cases i <;> simp [Effect.Frame]

/-- A command of one font and one character only answers with its failure where there is no font or no glyph (R192);
what it does with a glyph is left to show. -/
theorem effect_of_withGlyph {i : Instr} {op : Op} {font : FontSel} {ch : CharCode}
    {body : Font → Glyph → State → Host.Outcome State Fault Refusal}
    (hexec : ∀ s, exec i s = withGlyph op font ch s body) (hop : i.op = op) (hcursor : op.code ≠ 0x13#8) {s : State}
    (hglyph : ∀ F t k, resolveFont s.cfg font = some F → glyphIndex F ch = some (t, k) → ∃ e, Effect.Of i s e) :
    ∃ e, Effect.Of i s e := by
  subst hop
  obtain hfont | ⟨F, hfont, hg⟩ | ⟨F, t, k, hfont, hg⟩ := font_cases s.cfg font ch
  · exact ⟨_, .answer (fun q rs => (hexec _).trans (withGlyph_unconfigured hfont)) rfl
      (failureRecord_wf (by decide) hcursor)⟩
  · exact ⟨_, .answer (fun q rs => (hexec _).trans (withGlyph_notRepresentable hfont hg)) rfl
      (failureRecord_wf (by decide) hcursor)⟩
  · exact hglyph F t k hfont hg

theorem effect_glyphFor (font : FontSel) (ch : CharCode) (s : State) : ∃ e, Effect.Of (.glyphFor font ch) s e := by
  refine effect_of_withGlyph (op := .glyphFor) (fun _ => rfl) rfl (by decide) fun F t k hfont hg => ?_
  refine ⟨⟨s.fb, { opc := 0x01, status := .ok, val := BitVec.ofNat 16 (F.rows * 256 + F.cols), cursor := none
                   payload := (List.range F.gsize).map fun n => (tableBytes F t).getD (k * F.gsize + n) 0 },
    { s.work with gi := BitVec.ofNat 8 k }⟩, fun q rs => execGlyphFor_glyph hfont hg, rfl, ?_, id, id, rfl, rfl⟩
  refine ⟨by simp, fun h => absurd rfl h, by simp, by simp, fun _ _ => ?_, fun h => absurd rfl h⟩
  exact ⟨font, F, hfont, (shapeVal_eq (resolveFont_facts hfont)).symm, by simp⟩

theorem effect_glyphWidth (font : FontSel) (ch : CharCode) (s : State) :
    ∃ e, Effect.Of (.glyphWidth font ch) s e := by
  refine effect_of_withGlyph (op := .glyphWidth) (fun _ => rfl) rfl (by decide) fun F t k hfont hg => ?_
  refine ⟨⟨s.fb, { opc := 0x02, status := .ok, val := BitVec.ofNat 16 F.width, cursor := none, payload := [] },
    { s.work with gi := BitVec.ofNat 8 k }⟩, fun q rs => withGlyph_some hfont hg, rfl, ?_, id, id, rfl, rfl⟩
  exact Response.wf_of_noPayload rfl (by simp) (fun h => absurd rfl h) (by simp)

theorem effect_fontHeight (font : FontSel) (s : State) : ∃ e, Effect.Of (.fontHeight font) s e := by
  cases hfont : resolveFont s.cfg font with
  | none => exact ⟨_, .answer (fun q rs => withFont_none hfont) rfl (failureRecord_wf (by decide) (by decide))⟩
  | some F =>
    refine ⟨_, .answer (fun q rs => withFont_some hfont) rfl ?_⟩
    exact Response.wf_of_noPayload rfl (by simp [Op.code]) (fun h => absurd rfl h) (by simp [Op.code])

theorem effect_clear (s : State) : ∃ e, Effect.Of .clear s e := by
  refine ⟨⟨[], { opc := 0x10, status := .ok, val := 0, cursor := none, payload := [] }, s.work⟩, fun q rs => rfl, rfl,
    ?_, fun _ => ⟨.nil, by simp⟩, fun _ => by simp, rfl⟩
  exact Response.wf_of_noPayload rfl (by simp) (fun h => absurd rfl h) (by simp)

theorem pixelDone_wf (cfg : Cfg) : pixelDone.wf cfg :=
  Response.wf_of_noPayload rfl (by decide) (fun h => absurd rfl h) (by decide)

/-- A pixel write keeps the canonical form. -/
theorem State.pixelMem_wf {s : State} (hfb : s.fb.wf) (x y : Nat) (on : Bool) : (s.pixelMem x y on).wf :=
  Memory.write_wf hfb _ _

/-- A pixel of the display lies in a byte the buffer has (R43, R112). -/
theorem State.pixelMem_within {s : State} (hfb : s.fb.within s.cfg.fbSize) {x y : Nat} (on : Bool)
    (hx : x < s.cfg.width) (hy : y < s.cfg.height) : (s.pixelMem x y on).within s.cfg.fbSize := by
  have hpage : y / 8 < s.cfg.pages := by have := s.cfg.height_eq; omega
  exact Memory.write_within hfb (cellAddr_lt hpage hx) _

theorem effect_setPixel (x y : Coord) (on : Bool) (s : State) : ∃ e, Effect.Of (.setPixel x y on) s e := by
  by_cases hout : s.cfg.width ≤ x.toNat ∨ s.cfg.height ≤ y.toNat
  · exact ⟨_, .answer (fun q rs => execSetPixel_outside hout) rfl (pixelDone_wf s.cfg)⟩
  · have hx : x.toNat < s.cfg.width := by omega
    have hy : y.toNat < s.cfg.height := by omega
    exact ⟨⟨s.pixelMem x.toNat y.toNat on, pixelDone, (s.setRow y).work⟩, fun q rs => execSetPixel_pixelMem hx hy, rfl,
      pixelDone_wf s.cfg, fun h => State.pixelMem_wf h _ _ on, fun h => State.pixelMem_within h on hx hy, rfl⟩

theorem effect_drawGlyph (x y : Coord) (font : FontSel) (ch : CharCode) (s : State) :
    ∃ e, Effect.Of (.drawGlyph x y font ch) s e := by
  refine effect_of_withGlyph (op := .drawGlyph) (fun _ => rfl) rfl (by decide) fun F t k hfont hg => ?_
  refine ⟨⟨blitMem s.cfg F.rows F.cols (glyphCell F t k) x.toNat y.toNat s.fb,
    { opc := 0x12, status := .ok, val := advanceVal F, cursor := none, payload := [] },
    blitWork F y (s.setGi (BitVec.ofNat 8 k)).work⟩, fun q rs => execDrawGlyph_glyph hfont hg, rfl, ?_,
    fun h => blitMem_wf h _ _ _ _ _ _, fun h => blitMem_within h _ _ _ _ _, rfl⟩
  exact Response.wf_of_noPayload rfl (by simp) (fun h => absurd rfl h) (by simp)

theorem wrapCursor_withQueues (F : Font) (s : State) (q : List Word) (rs : List Response) :
    wrapCursor F (s.withQueues q rs) = (wrapCursor F s).withQueues q rs := by
  rw [wrapCursor, wrapCursor, apply_ite (State.withQueues · q rs)]
  rfl

theorem advance_withQueues (F : Font) (s : State) (q : List Word) (rs : List Response) :
    advance F (s.withQueues q rs) = (advance F s).withQueues q rs :=
  congrArg countChar (wrapCursor_withQueues F (advanceColumn F s) q rs)

theorem afterChar_withQueues (F : Font) (t : Table) (k : Nat) (s : State) (q : List Word) (rs : List Response) :
    afterChar F t k (s.withQueues q rs) = (afterChar F t k s).withQueues q rs :=
  advance_withQueues F (((s.setGi _).setFb _).setWork _) q rs

/-- The loop of `DRAW_STRING` neither reads nor writes the queues (R24, R49). -/
theorem drawChars_withQueues {fsel : FontSel} {F : Font} (hF : F.Facts fsel) {text : List CharCode} {s t : State}
    {st : Status} (h : drawChars F text s = .ok (st, t)) (q : List Word) (rs : List Response) :
    drawChars F text (s.withQueues q rs) = .ok (st, t.withQueues q rs) := by
  induction text generalizing s with
  | nil => cases h; rfl
  | cons ch text ih =>
    cases hg : glyphIndex F ch with
    | none =>
      rw [drawChars_none hg] at h ⊢
      cases h
      rfl
    | some g =>
      rw [drawChars_some hF hg] at h ⊢
      rw [afterChar_withQueues]
      exact ih h

/-- The record `DRAW_STRING` ends with: `VAL` is `n` when every character was drawn, else the count so far (R72). -/
def stringRecord (n : BitVec 16) (st : Status) (s : State) : Response where
  opc := 0x13
  status := st
  val := if st = .ok then n else s.work.si
  cursor := some s.cursor
  payload := []

/-- The end of `DRAW_STRING` appends its record and does nothing else (R72, R140). -/
theorem endString_eq (n : BitVec 16) (st : Status) (s : State) :
    endString n st s = s.respond (stringRecord n st s) := by
  cases st <;> rfl

theorem effect_drawString (x y : Coord) (font : FontSel) (text : List CharCode) (s : State) :
    ∃ e, Effect.Of (.drawString x y font text) s e := by
  cases hfont : resolveFont s.cfg font with
  | none =>
    exact ⟨⟨s.fb, failureRecord 0x13 .unconfiguredFont 0 (some ⟨x, y⟩), (startString x y s).work⟩,
      fun q rs => withFont_none (s := startString x y (s.withQueues q rs)) hfont, rfl, cursorRecord_wf _ _ _, id, id,
      trivial⟩
  | some F =>
    have hF := resolveFont_facts hfont
    obtain ⟨st, t, hdrawn, hd, -⟩ := drawChars_completes hF text (startString x y s)
    refine ⟨⟨t.fb, stringRecord (BitVec.ofNat 16 text.length) st t, t.work⟩, fun q rs => ?_, rfl,
      cursorRecord_wf _ _ _, hd.wf, hd.within, trivial⟩
    have hqueues : drawChars F text (startString x y (s.withQueues q rs)) = .ok (st, t.withQueues q rs) :=
      drawChars_withQueues hF hdrawn q rs
    refine (execDrawString_drawChars (s := s.withQueues q rs) hfont hqueues).trans ?_
    rw [endString_eq]
    refine congrArg _ (State.ext_fields hd.cfg rfl rfl rfl rfl)

theorem effect_snapshot (s : State) : ∃ e, Effect.Of .snapshot s e := by
  refine ⟨_, .answer (r := { opc := 0x14, status := .ok, val := 0, cursor := none, payload := allBytes s })
    (fun q rs => rfl) rfl ?_⟩
  refine ⟨by simp, fun h => absurd rfl h, by simp, fun _ _ => ?_, by simp, by simp⟩
  simp [allBytes]

/-- What every command does, in every state (R24, R25, R29, R72). -/
theorem exec_effect (i : Instr) (s : State) : ∃ e, Effect.Of i s e := by
  cases i with
  | glyphFor font ch => exact effect_glyphFor font ch s
  | glyphWidth font ch => exact effect_glyphWidth font ch s
  | fontHeight font => exact effect_fontHeight font s
  | clear => exact effect_clear s
  | setPixel x y on => exact effect_setPixel x y on s
  | drawGlyph x y font ch => exact effect_drawGlyph x y font ch s
  | drawString x y font text => exact effect_drawString x y font text s
  | snapshot => exact effect_snapshot s

theorem Effect.Of.exec_eq {i : Instr} {s : State} {e : Effect} (h : Effect.Of i s e) : exec i s = .next (s.after e) :=
  h.runs s.cmdQ s.rspQ

end Sys2Proof.Machine
end

section
/-! SUPPORT. Commands and steps of the block: what follows for each from `exec_effect`, the one lemma that says what a
command does, and from what stands at the head of `CmdQ`. -/

namespace Sys2Proof.Machine

/-! ### Commands -/

/-- Settles O45: a command's effect touches neither configuration nor `CmdQ`, appends one record, and keeps to
`Effect.Frame`. -/
theorem commandFrames : Obligations.CommandFrames := by
  unfold Obligations.CommandFrames
  intro i s t ht
  obtain ⟨e, he⟩ := exec_effect i s
  cases he.exec_eq.symm.trans ht
  refine ⟨rfl, rfl, ⟨e.record, rfl⟩, ?_⟩
  have hframe := he.frame
  cases i <;> exact hframe

/-- Settles O46: the second state is the first with other queues and working registers; the queues do not change the
effect (`Effect.Of.runs`), the registers show only in the registers (`exec_agree`). -/
theorem commandsShareOnlyTheBuffer : Obligations.CommandsShareOnlyTheBuffer := by
  unfold Obligations.CommandsShareOnlyTheBuffer
  intro i s s' hcfg hfb
  obtain ⟨e, he⟩ := exec_effect i s
  have hs' : s' = (s.withQueues s'.cmdQ s'.rspQ).setWork s'.work :=
    State.ext_fields hcfg.symm hfb.symm rfl rfl rfl
  obtain ⟨u, w, hu, hu'⟩ := exec_agree i (s.withQueues s'.cmdQ s'.rspQ) s'.work
  cases (he.runs _ _).symm.trans hu
  rw [← hs'] at hu'
  exact ⟨_, _, e.record, he.exec_eq, hu', rfl, rfl, rfl⟩

/-! ### What stands at the head of `CmdQ` -/

theorem step_of_decode {s : State} {i : Instr} {rest : List Word} (h : decode s.cmdQ = .ok (i, rest)) :
    step s = exec i (s.setCmdQ rest) := by
  simp only [step, h]

theorem step_of_reject {s : State} {r : Reject} (h : decode s.cmdQ = .error r) :
    step s = .next (withoutCommand r s) := by
  simp only [step, h]

theorem decode_illegal {h : Word} (hs : selectRow h = none) (q : List Word) :
    decode (h :: q) = .error (.illegalHeader h) := by
  simp only [decode, hs]

/-- The operands of a row are read, or some of their words are missing (R65, R66). -/
theorem decodeOperands_error {op : Op} {h : Word} {q : List Word} {r : Reject}
    (hd : decodeOperands op h q = .error r) : r = .incompleteCommand := by
  cases op with
  | glyphFor =>
    cases q with
    | nil => cases hd; rfl
    | cons ch q => cases hd
  | glyphWidth =>
    cases q with
    | nil => cases hd; rfl
    | cons ch q => cases hd
  | fontHeight => cases hd
  | clear => cases hd
  | setPixel =>
    cases q with
    | nil => cases hd; rfl
    | cons xy q => cases hd
  | drawGlyph =>
    match q with
    | [] => cases hd; rfl
    | [_] => cases hd; rfl
    | _ :: _ :: _ => cases hd
  | drawString =>
    cases q with
    | nil => cases hd; rfl
    | cons xy q =>
      simp only [decodeOperands] at hd
      split at hd
      · cases hd
      · cases hd; rfl
  | snapshot => cases hd

/-- A queue with a header is rejected for that header, or for what is missing after it (R61, R69). -/
theorem decode_error {h : Word} {q : List Word} {r : Reject} (hd : decode (h :: q) = .error r) :
    (selectRow h = none ∧ r = .illegalHeader h) ∨ r = .incompleteCommand := by
  cases hs : selectRow h with
  | none => cases (decode_illegal hs q).symm.trans hd; exact .inl ⟨rfl, rfl⟩
  | some row =>
    have hf := (fieldsOk_of_selectRow hs).1
    exact .inr (decodeOperands_error ((decode_of_fieldsOk hf q).symm.trans hd))

/-- Settles O5: R69's list is `illegalFields_iff`, and `decode_illegal` and `decode_error` say what the decoder makes
of it. -/
theorem illegalHeadersAreAnswered : Obligations.IllegalHeadersAreAnswered := by
  unfold Obligations.IllegalHeadersAreAnswered
  intro s h q hq
  refine ⟨fun hill => ?_, fun hleg hd => hleg ?_, rfl⟩
  · have hd : decode s.cmdQ = .error (.illegalHeader h) := hq ▸ decode_illegal ((illegalFields_iff h).1 hill) q
    rw [step_of_reject hd, withoutCommand, illegalCommand, hq]
    rfl
  · obtain ⟨hs, -⟩ | hr := decode_error (hq ▸ hd)
    · exact (illegalFields_iff h).2 hs
    · cases hr

/-- Settles O7: `step_of_decode`, and `decode_encode` for the words of a command. -/
theorem stepRunsTheDecodedCommand : Obligations.StepRunsTheDecodedCommand := by
  unfold Obligations.StepRunsTheDecodedCommand
  exact ⟨fun s i rest => step_of_decode, fun s i rest hwf hq => step_of_decode (hq ▸ decode_encode hwf rest)⟩

/-- The block waits: `CmdQ` is empty or holds only part of the command at its head (R61, R220). -/
def Waits (q : List Word) : Prop := q = [] ∨ ∃ h rest, q = h :: rest ∧ rest.length + 1 < commandLength h

theorem waits_or_whole (q : List Word) : Waits q ∨ ∃ h rest, q = h :: rest ∧ commandLength h ≤ rest.length + 1 := by
  cases q with
  | nil => exact .inl (.inl rfl)
  | cons h rest =>
    by_cases hlen : rest.length + 1 < commandLength h
    · exact .inl (.inr ⟨h, rest, rfl, hlen⟩)
    · exact .inr ⟨h, rest, rfl, Nat.le_of_not_lt hlen⟩

theorem decode_of_waits {q : List Word} (h : Waits q) :
    decode q = .error .emptyQueue ∨ decode q = .error .incompleteCommand := by
  obtain rfl | ⟨h, rest, rfl, hlen⟩ := h
  · exact .inl rfl
  · exact .inr ((decode_incomplete_iff h rest).2 hlen)

/-- The block does nothing while it waits (R61). -/
theorem step_of_waits {s : State} (h : Waits s.cmdQ) : step s = .next s := by
  obtain hd | hd := decode_of_waits h
  · exact step_of_reject hd
  · exact step_of_reject hd

theorem not_waits_of_enabled {s : State} (h : s.enabled = true) : ¬ Waits s.cmdQ := by
  intro hwaits
  unfold State.enabled at h
  obtain hd | hd := decode_of_waits hwaits
  · simp [hd] at h
  · simp [hd] at h

/-- The first word of a command's encoding carries its opcode and its length (R62, R66). -/
theorem encode_head {i : Instr} (hwf : i.wf = true) :
    ∃ h operands, encode i = h :: operands ∧ headerOpc h = i.op.code ∧ commandLength h = (encode i).length := by
  obtain ⟨h, operands, henc, hf, hlen⟩ := encode_header hwf
  refine ⟨h, operands, henc, Op.fieldsOk_code hf, ?_⟩
  rw [henc, commandLength_of_fieldsOk hf, List.length_cons, hlen, Nat.add_comm]

theorem commandLength_pos (h : Word) : 0 < commandLength h := by
  cases hs : selectRow h with
  | none => rw [commandLength_illegal hs]; decide
  | some r => rw [commandLength_selected hs]; omega

/-! ### What a step does that does not wait -/

/-- The step takes exactly the words the header `h` asks for, and leaves a frame buffer, one record with the header's
bits 31:24, and working registers that depend neither on later words nor on the records still in `RspQ`
(R24, R61, R66, R70). -/
structure Effect.OfStep (h : Word) (s : State) (e : Effect) : Prop where
  runs : ∀ words records, step (s.withQueues (s.cmdQ ++ words) records)
    = .next ((s.withQueues (s.cmdQ.drop (commandLength h) ++ words) records).after e)
  opc : e.record.opc = headerOpc h
  form : e.record.wf s.cfg
  wf : s.fb.wf → e.fb.wf
  within : s.fb.within s.cfg.fbSize → e.fb.within s.cfg.fbSize

/-- An illegal header is no header of `DRAW_STRING`, so its record needs no cursor word (R69, R72). -/
theorem headerOpc_ne_of_illegal {h : Word} (hs : selectRow h = none) : headerOpc h ≠ 0x13#8 :=
  (selectRow_eq_none_iff h).1 hs .drawString

theorem step_effect_of_illegal {s : State} {h : Word} {q : List Word} (hq : s.cmdQ = h :: q)
    (hs : selectRow h = none) : ∃ e, Effect.OfStep h s e := by
  refine ⟨⟨s.fb, failureRecord (headerOpc h) .illegalCommand 0 none, s.work⟩, fun words records => ?_, rfl,
    failureRecord_wf (by decide) (headerOpc_ne_of_illegal hs), id, id⟩
  rw [hq, commandLength_illegal hs]
  exact step_of_reject (s := s.withQueues (h :: (q ++ words)) records) (decode_illegal hs (q ++ words))

theorem step_effect_of_command {s : State} {h : Word} {q rest : List Word} {i : Instr} (hq : s.cmdQ = h :: q)
    (hd : decode s.cmdQ = .ok (i, rest)) : ∃ e, Effect.OfStep h s e := by
  obtain ⟨hwf, hwords⟩ := eq_encode_of_decode hd
  obtain ⟨h', operands, henc, hopc, hlen⟩ := encode_head hwf
  obtain ⟨e, he⟩ := exec_effect i s
  obtain rfl : h' = h := by
    rw [henc, hq] at hwords
    exact (List.cons.inj hwords).1.symm
  have hdrop : s.cmdQ.drop (commandLength h') = rest := by rw [hwords, hlen, List.drop_left]
  refine ⟨e, fun words records => ?_, he.opc.trans hopc.symm, he.form, he.wf, he.within⟩
  have hlater : decode (s.cmdQ ++ words) = .ok (i, rest ++ words) := by
    rw [hwords, List.append_assoc]
    exact decode_encode hwf (rest ++ words)
  rw [hdrop]
  exact (step_of_decode (s := s.withQueues (s.cmdQ ++ words) records) hlater).trans (he.runs (rest ++ words) records)

/-- A whole command and an illegal header are both answered (R61, R69). -/
theorem step_effect {s : State} {h : Word} {q : List Word} (hq : s.cmdQ = h :: q)
    (hlen : commandLength h ≤ q.length + 1) : ∃ e, Effect.OfStep h s e := by
  cases hd : decode s.cmdQ with
  | ok c => exact step_effect_of_command hq hd
  | error r =>
    rw [hq] at hd
    obtain ⟨hs, -⟩ | rfl := decode_error hd
    · exact step_effect_of_illegal hq hs
    · exact absurd ((decode_incomplete_iff h q).1 hd) (Nat.not_lt.2 hlen)

theorem Effect.OfStep.step_withRecords {h : Word} {s : State} {e : Effect} (he : e.OfStep h s)
    (records : List Response) : step (s.withQueues s.cmdQ records)
      = .next ((s.withQueues (s.cmdQ.drop (commandLength h)) records).after e) := by
  simpa only [List.append_nil] using he.runs [] records

theorem Effect.OfStep.step_eq {h : Word} {s : State} {e : Effect} (he : e.OfStep h s) :
    step s = .next ((s.setCmdQ (s.cmdQ.drop (commandLength h))).after e) :=
  he.step_withRecords s.rspQ

/-- The two things a step can do. -/
theorem step_cases (s : State) : (Waits s.cmdQ ∧ step s = .next s)
    ∨ ∃ h q e, s.cmdQ = h :: q ∧ Effect.OfStep h s e := by
  obtain hwaits | ⟨h, q, hq, hlen⟩ := waits_or_whole s.cmdQ
  · exact .inl ⟨hwaits, step_of_waits hwaits⟩
  · obtain ⟨e, he⟩ := step_effect hq hlen
    exact .inr ⟨h, q, e, hq, he⟩

/-! ### Steps -/

/-- Settles O8: `step_of_waits`; and a step that does not wait leaves one record more. -/
theorem idleExactlyWithoutWholeCommand : Obligations.IdleExactlyWithoutWholeCommand := by
  unfold Obligations.IdleExactlyWithoutWholeCommand
  refine fun s => ⟨fun hidle => ?_, step_of_waits⟩
  obtain ⟨hwaits, -⟩ | ⟨h, q, e, -, he⟩ := step_cases s
  · exact hwaits
  · have hsame := Host.Outcome.next.inj (he.step_eq.symm.trans hidle)
    have hrsp : s.rspQ ++ [e.record] = s.rspQ := congrArg State.rspQ hsame
    exact absurd (congrArg List.length hrsp) (by simp)

/-- Settles O9: `exec_effect` and `step_cases` name the next state. -/
theorem nothingEverStops : Obligations.NothingEverStops := by
  unfold Obligations.NothingEverStops
  refine ⟨fun i s => ?_, fun s => ?_⟩
  · obtain ⟨e, he⟩ := exec_effect i s
    exact ⟨_, he.exec_eq⟩
  · obtain ⟨-, hstep⟩ | ⟨h, q, e, -, he⟩ := step_cases s
    · exact ⟨_, hstep⟩
    · exact ⟨_, he.step_eq⟩

/-- Settles O10: `step_effect`. -/
theorem eachCommandLeavesOneRecord : Obligations.EachCommandLeavesOneRecord := by
  unfold Obligations.EachCommandLeavesOneRecord
  intro s h q hq hlen
  obtain ⟨e, he⟩ := step_effect hq hlen
  exact ⟨_, e.record, he.step_eq, rfl, rfl, he.opc, rfl⟩

/-- Settles O11: the invariant is kept part by part: the frame buffer's form and size, and the new record's form. -/
theorem stepKeepsInvariant : Obligations.StepKeepsInvariant := by
  unfold Obligations.StepKeepsInvariant
  intro s t hinv ht
  obtain ⟨-, hstep⟩ | ⟨h, q, e, -, he⟩ := step_cases s
  · cases hstep.symm.trans ht
    exact hinv
  · cases he.step_eq.symm.trans ht
    obtain ⟨hwf, hwithin, hrecords⟩ := hinv
    refine ⟨he.wf hwf, he.within hwithin, fun r hr => ?_⟩
    obtain hold | hnew := List.mem_append.1 hr
    · exact hrecords r hold
    · cases List.mem_singleton.1 hnew
      exact he.form

/-- Settles O15, by induction on the number of words in `CmdQ`: a step that does not wait takes at least the header. -/
theorem queueDrains : Obligations.QueueDrains := by
  unfold Obligations.QueueDrains
  intro s
  induction hn : s.cmdQ.length using Nat.strong_induction_on generalizing s with
  | _ n ih =>
    subst hn
    obtain ⟨-, hstep⟩ | ⟨h, q, e, hq, he⟩ := step_cases s
    · exact ⟨0, s, Nat.zero_le _, rfl, hstep, rfl⟩
    · have hshorter : (s.cmdQ.drop (commandLength h)).length < s.cmdQ.length := by
        have hpos := commandLength_pos h
        rw [List.length_drop, hq, List.length_cons]
        omega
      obtain ⟨k, t, hk, hrun, hwaits, hrecords⟩ :=
        ih _ hshorter ((s.setCmdQ (s.cmdQ.drop (commandLength h))).after e) rfl
      refine ⟨k + 1, t, hk.trans_lt hshorter, (run_succ_of_next (M := core) he.step_eq k).trans hrun, hwaits, ?_⟩
      rw [hrecords, State.after_rspQ, State.setCmdQ_rspQ, List.length_append, List.length_singleton]
      omega

/-- Settles O16: `step_agree`. -/
theorem workingRegistersAreUnobservable : Obligations.WorkingRegistersAreUnobservable := by
  unfold Obligations.WorkingRegistersAreUnobservable
  exact step_agree

/-- Settles O17: the effect of the step does not depend on later words (`Effect.OfStep.runs`). -/
theorem laterWordsDoNotDisturb : Obligations.LaterWordsDoNotDisturb := by
  unfold Obligations.LaterWordsDoNotDisturb
  intro s t words henabled ht
  obtain ⟨hwaits, -⟩ | ⟨h, q, e, -, he⟩ := step_cases s
  · exact absurd hwaits (not_waits_of_enabled henabled)
  · cases he.step_eq.symm.trans ht
    exact he.runs words s.rspQ

/-- The host takes a record exactly where it stands first in `RspQ` (R202). -/
theorem hostTake_eq_some_iff {s s' : State} {r : Response} :
    hostTake s = some (r, s') ↔ s.rspQ = r :: s'.rspQ ∧ s' = s.withQueues s.cmdQ s'.rspQ := by
  unfold hostTake
  cases hrsp : s.rspQ with
  | nil => simp
  | cons r' rest =>
    constructor
    · intro h
      cases h
      exact ⟨rfl, rfl⟩
    · rintro ⟨h, hs'⟩
      cases h
      rw [hs']
      rfl

/-- Settles O18: the effect of the step does not depend on the records still in `RspQ`, and its own record goes to the
end. -/
theorem takingRecordsDoesNotDisturb : Obligations.TakingRecordsDoesNotDisturb := by
  unfold Obligations.TakingRecordsDoesNotDisturb
  intro s s' t r htake ht
  obtain ⟨hrsp, hs'⟩ := hostTake_eq_some_iff.1 htake
  obtain ⟨hwaits, hstep⟩ | ⟨h, q, e, -, he⟩ := step_cases s
  · cases hstep.symm.trans ht
    exact ⟨s', step_of_waits (hs' ▸ hwaits), htake⟩
  · cases he.step_eq.symm.trans ht
    refine ⟨(s.withQueues (s.cmdQ.drop (commandLength h)) s'.rspQ).after e, ?_, hostTake_eq_some_iff.2 ⟨?_, rfl⟩⟩
    · have hstep := he.step_withRecords s'.rspQ
      rwa [← hs'] at hstep
    · exact congrArg (· ++ [e.record]) hrsp

/-! ### Reset -/

theorem resetWith_inv (c : Cfg) : (State.resetWith c).Inv :=
  ⟨⟨.nil, fun _ h => nomatch h⟩, fun _ h => (nomatch h), fun _ h => nomatch h⟩

/-- Settles O12: after reset no byte is listed and no record stands in `RspQ`. -/
theorem resetMeetsInvariant : Obligations.ResetMeetsInvariant := by
  unfold Obligations.ResetMeetsInvariant
  exact ⟨resetWith_inv, resetWith_inv Config.reference⟩

/-- The first command after reset runs on the reset state itself (R211). -/
theorem step_hostCommand_resetWith (c : Cfg) {i : Instr} (hwf : i.wf = true) :
    step (hostCommand i (State.resetWith c)) = exec i (State.resetWith c) := by
  have hd := decode_encode hwf []
  rw [List.append_nil] at hd
  exact step_of_decode (s := hostCommand i (State.resetWith c)) hd

/-- Settles O14: an empty queue waits; `step_hostCommand_resetWith`; and a snapshot of a buffer that reads 0
(`allBytes_of_read_zero`). -/
theorem firstCommandAfterReset : Obligations.FirstCommandAfterReset := by
  unfold Obligations.FirstCommandAfterReset
  refine fun c => ⟨rfl, fun i => step_hostCommand_resetWith c, ?_⟩
  have hzero := allBytes_of_read_zero (s := State.resetWith c) Memory.read_nil
  rw [step_hostCommand_resetWith c rfl, exec, execSnapshot, hzero]
  rfl

end Sys2Proof.Machine
end

section
/-! SUPPORT. Records, queries, pixels and snapshots, held beside each other: the words of a record, the queries against
the drawing commands, pixel writes one after another, the pages of a snapshot. -/

namespace Sys2Proof.Machine

/-! ### The words of a record -/

/-- Settles O20: a record's header has the layout of a command's (R62, R70), so the three fields are read back as
there. -/
theorem recordWords : Obligations.RecordWords := by
  unfold Obligations.RecordWords
  intro r
  refine ⟨r.header, ?_, headerOpc_headerWord r.opc r.status.code r.val, ?_,
    headerArg_headerWord r.opc r.status.code r.val⟩
  · cases hcursor : r.cursor <;> simp [Response.words, hcursor]
  · refine (headerFsel_headerWord r.opc r.status.code r.val).trans ?_
    cases r.status <;> rfl

/-! ### The queries and the drawing commands -/

/-- Settles O27: each of the three commands ends in `withGlyph`. -/
theorem missingGlyphIsOnlyReported : Obligations.MissingGlyphIsOnlyReported := by
  unfold Obligations.MissingGlyphIsOnlyReported
  exact fun s font F ch hfont hg => ⟨withGlyph_notRepresentable hfont hg, withGlyph_notRepresentable hfont hg,
    fun x y => withGlyph_notRepresentable hfont hg⟩

/-- The low byte field of `VAL` (R72). -/
theorem lowByte_ofNat (hi lo : Nat) : (BitVec.ofNat 16 (hi * 256 + lo)).extractLsb' 0 8 = BitVec.ofNat 8 lo := by
  refine BitVec.eq_of_toNat_eq ?_
  simp only [BitVec.extractLsb'_toNat, BitVec.toNat_ofNat, Nat.shiftRight_zero]
  omega

/-- The high byte field of `VAL` (R72). -/
theorem highByte_ofNat (hi : Nat) {lo : Nat} (hlo : lo < 256) :
    (BitVec.ofNat 16 (hi * 256 + lo)).extractLsb' 8 8 = BitVec.ofNat 8 hi := by
  refine BitVec.eq_of_toNat_eq ?_
  simp only [BitVec.extractLsb'_toNat, BitVec.toNat_ofNat, Nat.shiftRight_eq_div_pow]
  omega

/-- The two advances fit one byte each (R8, R72). -/
theorem advanceVal_eq {fsel : FontSel} {F : Font} (hF : F.Facts fsel) :
    advanceVal F = BitVec.ofNat 16 (F.height * 256 + F.width) :=
  ofNat_shiftLeft_or F.height (Nat.lt_succ_of_le hF.cols_le)

/-- The fields of `GLYPH_FOR`'s `VAL` are the glyph's rows and columns (R8, R96). -/
theorem shapeBytes_toNat {fsel : FontSel} {F : Font} (hF : F.Facts fsel) :
    ((BitVec.ofNat 16 (F.rows * 256 + F.cols)).extractLsb' 8 8).toNat = F.rows
      ∧ ((BitVec.ofNat 16 (F.rows * 256 + F.cols)).extractLsb' 0 8).toNat = F.cols := by
  have hrows := hF.rows_le
  have hcols := hF.cols_le
  rw [highByte_ofNat _ (Nat.lt_succ_of_le hcols), lowByte_ofNat, BitVec.toNat_ofNat, BitVec.toNat_ofNat]
  exact ⟨Nat.mod_eq_of_lt (by omega), Nat.mod_eq_of_lt (by omega)⟩

/-- The payload of `GLYPH_FOR` holds the glyph row by row (R93, R96). -/
theorem payload_getD {F : Font} (t : Table) (k : Nat) {i j : Nat} (hi : i < F.rows) (hj : j < F.cols) :
    ((List.range F.gsize).map fun n => (tableBytes F t).getD (k * F.gsize + n) 0).getD (i * F.cols + j) 0
      = glyphCell F t k i j := by
  have hlt := glyphOffset_lt hi hj
  rw [List.getD_eq_getElem _ _ (by simpa using hlt), List.getElem_map, List.getElem_range]
  rfl

/-- `DRAW_STRING` of one character that has a glyph leaves the glyph's blit and reports `OK` (R140, R148). -/
theorem execDrawString_singleton {x y : Coord} {font : FontSel} {ch : CharCode} {s : State} {F : Font} {t : Table}
    {k : Nat} (hfont : resolveFont s.cfg font = some F) (hg : glyphIndex F ch = some (t, k)) :
    ∃ u r, execDrawString x y font [ch] s = .next u ∧ u.rspQ = s.rspQ ++ [r] ∧ r.status = .ok
      ∧ u.fb = blitMem s.cfg F.rows F.cols (glyphCell F t k) x.toNat y.toNat s.fb := by
  have hdrawn := drawChars_some (resolveFont_facts hfont) hg [] (startString x y s)
  refine ⟨_, stringRecord 1 .ok (afterChar F t k (startString x y s)), execDrawString_drawChars hfont hdrawn, ?_,
    rfl, ?_⟩
  · rw [endString_eq, State.respond_rspQ, afterChar_rspQ]
    rfl
  · rw [endString_eq, State.respond_fb, afterChar_fb]
    rfl

/-- `DRAW_STRING` of one character without a glyph reports status 1 and draws nothing (R143). -/
theorem execDrawString_singleton_none {x y : Coord} {font : FontSel} {ch : CharCode} {s : State} {F : Font}
    (hfont : resolveFont s.cfg font = some F) (hg : glyphIndex F ch = none) :
    execDrawString x y font [ch] s = .next (endString 1 .notRepresentable (startString x y s)) :=
  execDrawString_drawChars hfont (drawChars_none hg [] (startString x y s))

/-- Settles O28: the four commands part into the same three cases (`font_cases`); with a glyph, the advances are byte
fields of `VAL`, and the cells on the display are those of `alignedGlyphOnTheDisplay`. -/
theorem queriesAgreeWithDrawing : Obligations.QueriesAgreeWithDrawing := by
  unfold Obligations.QueriesAgreeWithDrawing
  intro s x y font ch hinv
  obtain hfont | ⟨F, hfont, hg⟩ | ⟨F, t, k, hfont, hg⟩ := font_cases s.cfg font ch
  · exact ⟨_, _, _, _, _, _, _, _, _, _, withGlyph_unconfigured hfont, rfl, withGlyph_unconfigured hfont, rfl,
      withGlyph_unconfigured hfont, rfl, withFont_none (s := startString x y s) hfont, rfl, withFont_none hfont, rfl,
      rfl, rfl, rfl, fun hok => nomatch hok⟩
  · exact ⟨_, _, _, _, _, _, _, _, _, _, withGlyph_notRepresentable hfont hg, rfl,
      withGlyph_notRepresentable hfont hg, rfl, withGlyph_notRepresentable hfont hg, rfl,
      execDrawString_singleton_none hfont hg, rfl, withFont_some hfont, rfl, rfl, rfl, rfl, fun hok => nomatch hok⟩
  · have hF := resolveFont_facts hfont
    have hwidth : F.width < 256 := Nat.lt_succ_of_le hF.cols_le
    have hdrawn := execDrawGlyph_glyph (x := x) (y := y) hfont hg
    obtain ⟨d, rd, hd, hrecord, hstatus, -⟩ := execDrawString_singleton (x := x) (y := y) hfont hg
    refine ⟨_, _, _, d, _, _, _, _, rd, _, execGlyphFor_glyph hfont hg, rfl, withGlyph_some hfont hg, rfl, hdrawn, rfl,
      hd, hrecord, withFont_some hfont, rfl, rfl, rfl, hstatus.symm,
      fun _ => ⟨rfl, ?_, ?_, fun haligned i j hi hj hp hc => ?_⟩⟩
    · simp only [advanceVal_eq hF, lowByte_ofNat]
      simpa using (lowByte_ofNat 0 F.width).symm
    · simp only [advanceVal_eq hF, highByte_ofNat _ hwidth]
      simpa using (lowByte_ofNat 0 F.height).symm
    · obtain ⟨hrows, hcols⟩ := shapeBytes_toNat hF
      obtain ⟨u, hu, hcells, -⟩ := alignedGlyphOnTheDisplay s x y font F ch t k hinv hfont hg haligned
      cases hdrawn.symm.trans hu
      simp only [hrows, hcols] at hi hj ⊢
      rw [payload_getD t k hi hj]
      exact hcells i j hi hj hp hc

/-! ### Pixels -/

/-- The display of `t` is that of `s` with pixel `(x, y)`, where the display has it, at level `on`. -/
structure SetsPixel (x y : Nat) (on : Bool) (s t : State) : Prop where
  cfg : t.cfg = s.cfg
  wf : t.fb.wf
  within : t.fb.within t.cfg.fbSize
  pixel : ∀ x' y', x' < s.cfg.width → y' < s.cfg.height →
    t.pixel x' y' = if x' = x ∧ y' = y then on else s.pixel x' y'

/-- `SET_PIXEL` sets its pixel in and outside the display: outside there is none to set (R112). -/
theorem exec_setPixel {s : State} (hwf : s.fb.wf) (hwithin : s.fb.within s.cfg.fbSize) (x y : Coord) (on : Bool) :
    ∃ t, exec (.setPixel x y on) s = .next t ∧ SetsPixel x.toNat y.toNat on s t := by
  by_cases hout : s.cfg.width ≤ x.toNat ∨ s.cfg.height ≤ y.toNat
  · refine ⟨_, execSetPixel_outside hout, rfl, hwf, hwithin, fun x' y' hx' hy' => ?_⟩
    rw [if_neg (by omega)]
    rfl
  · have hx : x.toNat < s.cfg.width := by omega
    have hy : y.toNat < s.cfg.height := by omega
    exact ⟨_, execSetPixel_pixelMem hx hy, rfl, State.pixelMem_wf hwf _ _ on, State.pixelMem_within hwithin on hx hy,
      fun x' y' hx' _ => State.pixelMem_pixel hwf y.toNat y' on hx hx'⟩

/-- A buffer is known by its pixels (R41, R43). -/
theorem fb_eq_of_pixels {cfg : Cfg} {s t : State} (hcfg : s.cfg = cfg) (hcfg' : t.cfg = cfg) (hwf : s.fb.wf)
    (hwf' : t.fb.wf) (hwithin : s.fb.within s.cfg.fbSize) (hwithin' : t.fb.within t.cfg.fbSize)
    (hpixel : ∀ x y, x < cfg.width → y < cfg.height → s.pixel x y = t.pixel x y) : s.fb = t.fb := by
  subst hcfg
  refine Memory.ext_read hwf hwf' fun a => ?_
  by_cases ha : a < s.cfg.fbSize
  · refine BitVec.eq_of_getLsbD_eq fun n hn => ?_
    have hpage := div_lt_pages_iff.2 ha
    have hrow : 8 * (a / s.cfg.width) + n < s.cfg.height := by have := s.cfg.height_eq; omega
    have hbit := hpixel _ _ (Nat.mod_lt a s.cfg.width_pos) hrow
    have hdiv : (8 * (a / s.cfg.width) + n) / 8 = a / s.cfg.width := by omega
    have hmod : (8 * (a / s.cfg.width) + n) % 8 = n := by omega
    simpa only [State.pixel, State.cell, hcfg', hdiv, hmod, cellAddr_div_mod] using hbit
  · have ha' : s.cfg.fbSize ≤ a := Nat.le_of_not_lt ha
    rw [Memory.read_outside hwithin ha', Memory.read_outside hwithin' (hcfg' ▸ ha')]

/-- After two pixel writes the later one decides where both fall on one pixel (R112). -/
theorem SetsPixel.pixel_pixel {x y x' y' : Nat} {on on' : Bool} {s t u : State} (h : SetsPixel x y on s t)
    (h' : SetsPixel x' y' on' t u) {x'' y'' : Nat} (hx : x'' < s.cfg.width) (hy : y'' < s.cfg.height) :
    u.pixel x'' y'' = if x'' = x' ∧ y'' = y' then on' else if x'' = x ∧ y'' = y then on else s.pixel x'' y'' := by
  have hheight : t.cfg.height = s.cfg.height := congrArg Cfg.height h.cfg
  rw [h'.pixel x'' y'' (h.cfg ▸ hx) (hheight ▸ hy), h.pixel x'' y'' hx hy]

/-- Settles O31: each command sets one pixel (`exec_setPixel`), and buffers with the same pixels are equal
(`fb_eq_of_pixels`). -/
theorem setPixelAlgebra : Obligations.SetPixelAlgebra := by
  unfold Obligations.SetPixelAlgebra
  rintro s x y x' y' on on' ⟨hwf, hwithin, -⟩
  obtain ⟨a, ha, hsa⟩ := exec_setPixel hwf hwithin x y true
  obtain ⟨b, hb, hab⟩ := exec_setPixel hsa.wf hsa.within x y false
  obtain ⟨c, hc, hsc⟩ := exec_setPixel hwf hwithin x y on
  obtain ⟨d, hd, hcd⟩ := exec_setPixel hsc.wf hsc.within x y on
  obtain ⟨e, he, hce⟩ := exec_setPixel hsc.wf hsc.within x' y' on'
  obtain ⟨f, hf, hsf⟩ := exec_setPixel hwf hwithin x' y' on'
  obtain ⟨g, hg, hfg⟩ := exec_setPixel hsf.wf hsf.within x y on
  refine ⟨a, b, c, d, e, f, g, ha, hb, fun hx hy => ⟨?_, fun hoff => ?_⟩, hc, hd, ?_, he, hf, hg, fun hne => ?_⟩
  · rw [hsa.pixel_pixel hab hx hy, if_pos ⟨rfl, rfl⟩]
  · refine fb_eq_of_pixels (hab.cfg.trans hsa.cfg) rfl hab.wf hwf hab.within hwithin fun x'' y'' hx'' hy'' => ?_
    rw [hsa.pixel_pixel hab hx'' hy'']
    split
    · next h => rw [h.1, h.2, hoff]
    · rfl
  · refine fb_eq_of_pixels (hcd.cfg.trans hsc.cfg) hsc.cfg hcd.wf hsc.wf hcd.within hsc.within
      fun x'' y'' hx'' hy'' => ?_
    rw [hsc.pixel_pixel hcd hx'' hy'', hsc.pixel x'' y'' hx'' hy'']
    split <;> rfl
  · refine fb_eq_of_pixels (hce.cfg.trans hsc.cfg) (hfg.cfg.trans hsf.cfg) hce.wf hfg.wf hce.within hfg.within
      fun x'' y'' hx'' hy'' => ?_
    rw [hsc.pixel_pixel hce hx'' hy'', hsf.pixel_pixel hfg hx'' hy'']
    by_cases h' : x'' = x'.toNat ∧ y'' = y'.toNat
    · have h : ¬ (x'' = x.toNat ∧ y'' = y.toNat) := fun h =>
        hne (Prod.ext (BitVec.eq_of_toNat_eq (h.1.symm.trans h'.1)) (BitVec.eq_of_toNat_eq (h.2.symm.trans h'.2)))
      rw [if_pos h', if_neg h, if_pos h']
    · rw [if_neg h', if_neg h']

/-! ### The pages of a snapshot -/

/-- The entries of a table of pages from the first of page `p` on (R118). -/
theorem range_map_page {pages width p : Nat} (hp : p < pages) (f : Nat → Byte) :
    (((List.range (pages * width)).map f).drop (p * width)).take width
      = (List.range width).map fun c => f (p * width + c) := by
  have hroom : (p + 1) * width ≤ pages * width := Nat.mul_le_mul_right _ hp
  rw [Nat.succ_mul] at hroom
  refine List.ext_getElem ?_ fun c _ _ => by simp
  simp only [List.length_take, List.length_drop, List.length_map, List.length_range]
  omega

/-- Settles O33: the payload is `allBytes`, and `WIDTH` of its bytes from `p * WIDTH` on are those of page `p`. -/
theorem snapshotPagesAreTheDisplay : Obligations.SnapshotPagesAreTheDisplay := by
  unfold Obligations.SnapshotPagesAreTheDisplay
  intro s t r ht hrsp p hp
  cases ht
  obtain rfl := List.singleton_inj.1 (List.append_cancel_left hrsp)
  exact range_map_page hp s.fb.read

/-! ### The halves of a glyph byte -/

theorem lowHalf_getLsbD (off : Nat) (b : Byte) {n : Nat} (hn : n < 8) :
    (lowHalf off b).getLsbD n = (decide (off ≤ n) && b.getLsbD (n - off)) := by
  rw [lowHalf, BitVec.getLsbD_shiftLeft, decide_eq_true hn, Bool.true_and, ← decide_not]
  simp only [Nat.not_lt]

theorem highHalf_getLsbD {off : Nat} (hoff : off ≤ 8) (b : Byte) (n : Nat) :
    (highHalf off b).getLsbD n = (decide (n < off) && b.getLsbD (8 - off + n)) := by
  rw [highHalf, BitVec.getLsbD_ushiftRight]
  by_cases hn : n < off
  · rw [decide_eq_true hn, Bool.true_and]
  · rw [BitVec.getLsbD_of_ge _ _ (by omega), Bool.and_false]

/-- The low half moved back holds the low `8 - off` bits of the byte (R135). -/
theorem lowHalf_back_getLsbD {off : Nat} (b : Byte) (n : Nat) :
    (lowHalf off b >>> off).getLsbD n = (decide (n < 8 - off) && b.getLsbD n) := by
  rw [BitVec.getLsbD_ushiftRight]
  by_cases hn : off + n < 8
  · have hlow : n < 8 - off := by omega
    rw [lowHalf_getLsbD off b hn, Nat.add_sub_cancel_left, decide_eq_true (Nat.le_add_right off n),
      decide_eq_true hlow]
  · have hlow : ¬ n < 8 - off := by omega
    rw [BitVec.getLsbD_of_ge _ _ (Nat.le_of_not_lt hn), decide_eq_false hlow, Bool.false_and]

/-- The high half moved back holds the high `off` bits of the byte (R135). -/
theorem highHalf_back_getLsbD {off : Nat} (hoff : off ≤ 8) (b : Byte) {n : Nat} (hn : n < 8) :
    (highHalf off b <<< (8 - off)).getLsbD n = (!decide (n < 8 - off) && b.getLsbD n) := by
  rw [BitVec.getLsbD_shiftLeft, highHalf_getLsbD hoff, decide_eq_true hn, Bool.true_and]
  by_cases hlow : n < 8 - off
  · rw [decide_eq_true hlow, Bool.not_true, Bool.false_and, Bool.false_and]
  · have hplace : 8 - off + (n - (8 - off)) = n := by omega
    have hhigh : n - (8 - off) < off := by omega
    rw [hplace, decide_eq_true hhigh, Bool.true_and]

/-- Settles O34: the halves bit by bit; shifted back, each bit of the byte comes from exactly one of them. -/
theorem splitHalves : Obligations.SplitHalves := by
  unfold Obligations.SplitHalves
  intro off b hlo hhi
  have hoff : off ≤ 8 := by omega
  refine ⟨fun n hn => lowHalf_getLsbD off b hn, fun n _ => highHalf_getLsbD hoff b n, ?_, ?_⟩
  · refine BitVec.eq_of_getLsbD_eq fun n hn => ?_
    rw [BitVec.getLsbD_or, lowHalf_back_getLsbD, highHalf_back_getLsbD hoff b hn]
    cases decide (n < 8 - off) <;> simp
  · refine BitVec.eq_of_getLsbD_eq fun n hn => ?_
    rw [BitVec.getLsbD_and, lowHalf_back_getLsbD, highHalf_back_getLsbD hoff b hn]
    cases decide (n < 8 - off) <;> simp

end Sys2Proof.Machine
end

section
/-! SUPPORT. Glyphs and strings on the display (`42_compositor.md`): the straddling blit, drawing twice, drawing below
the display, and the loop of `DRAW_STRING` beside the loop on unbounded numbers. -/

namespace Sys2Proof.Machine

/-! ### One glyph -/

/-- Settles O35: `execDrawGlyph_glyph`, whose registers are `blitWork`'s. -/
theorem drawGlyphReturnsAdvances : Obligations.DrawGlyphReturnsAdvances := by
  unfold Obligations.DrawGlyphReturnsAdvances
  intro s x y font F ch t k hfont hg
  rw [← advanceVal_eq (resolveFont_facts hfont)]
  exact ⟨_, _, execDrawGlyph_glyph hfont hg, rfl⟩

/-- On the page below a straddling glyph a cell takes the high half of the last row (R136, R137). -/
theorem stamp_below {rows cols j : Nat} (G : Nat → Nat → Byte) (x : Nat) {y : Nat} (hrows : 0 < rows)
    (hy : y % 8 ≠ 0) (hj : j < cols) :
    stamp rows cols G x y (y / 8 + rows) (x + j) = some (highHalf (y % 8) (G (rows - 1) j)) := by
  have hin : x ≤ x + j ∧ x + j < x + cols ∧ y / 8 ≤ y / 8 + rows := by omega
  rw [stamp, if_pos hin, Nat.add_sub_cancel_left, Nat.add_sub_cancel_left, if_neg (Nat.lt_irrefl rows),
    if_pos ⟨rfl, hy, hrows⟩]

/-- Settles O37: the frame buffer is `blitMem`, whose cells `stamp_own` and `stamp_below` give, and which
`blitMem_frame` leaves alone elsewhere. -/
theorem straddlingGlyphOnTheDisplay : Obligations.StraddlingGlyphOnTheDisplay := by
  unfold Obligations.StraddlingGlyphOnTheDisplay
  rintro s x y font F ch t k ⟨hfb, -, -⟩ hfont hg hy
  refine ⟨_, execDrawGlyph_glyph hfont hg, fun i j hi hj hp hc => ?_, fun j hj hp hc => ?_, fun a hout => ?_⟩
  · refine (blitMem_read_cell hfb F.rows F.cols _ x.toNat y.toNat hp hc).trans ?_
    rw [stamp_own _ _ _ hi hj]
    rfl
  · refine (blitMem_read_cell hfb F.rows F.cols _ x.toNat y.toNat hp hc).trans ?_
    rw [stamp_below _ _ (resolveFont_facts hfont).rows_pos hy hj]
    rfl
  · exact blitMem_frame hfb _ fun i j hi hj hp hc => hout i j (by omega) hj hp hc

/-- A blit writes the same bytes whatever stood there, so a second one changes nothing (R139). -/
theorem blitMem_blitMem {m : Memory} (hm : m.wf) (cfg : Cfg) (rows cols : Nat) (G : Nat → Nat → Byte) (x y : Nat) :
    blitMem cfg rows cols G x y (blitMem cfg rows cols G x y m) = blitMem cfg rows cols G x y m := by
  have hm' := blitMem_wf hm cfg rows cols G x y
  refine Memory.ext_read (blitMem_wf hm' cfg rows cols G x y) hm' fun a => ?_
  rw [blitMem_read hm', blitMem_read hm]
  split
  · cases stamp rows cols G x y (a / cfg.width) (a % cfg.width) <;> rfl
  · rfl

/-- Settles O38: the second command takes the same case as the first (`font_cases`); a failing one draws nothing, and
of two blits the second changes nothing (`blitMem_blitMem`). -/
theorem redrawingIsIdempotent : Obligations.RedrawingIsIdempotent := by
  unfold Obligations.RedrawingIsIdempotent
  rintro s x y font ch ⟨hfb, -, -⟩
  obtain hfont | ⟨F, hfont, hg⟩ | ⟨F, t, k, hfont, hg⟩ := font_cases s.cfg font ch
  · exact ⟨_, _, withGlyph_unconfigured hfont, withGlyph_unconfigured hfont, rfl⟩
  · exact ⟨_, _, withGlyph_notRepresentable hfont hg, withGlyph_notRepresentable hfont hg, rfl⟩
  · exact ⟨_, _, execDrawGlyph_glyph hfont hg, execDrawGlyph_glyph hfont hg, blitMem_blitMem hfb _ _ _ _ _ _⟩

/-! ### Short strings -/

/-- Settles O41: the loop over no characters draws nothing. -/
theorem emptyStringDrawsNothing : Obligations.EmptyStringDrawsNothing := by
  unfold Obligations.EmptyStringDrawsNothing
  exact fun s x y font F hfont => execDrawString_drawChars (s := s) (x := x) (y := y) (text := []) hfont rfl

theorem State.lastStatus_of_rspQ {s : State} {rs : List Response} {r : Response} (h : s.rspQ = rs ++ [r]) :
    s.lastStatus = some r.status := by
  rw [lastStatus, h, List.getLast?_concat, Option.map_some]

theorem raise_lastStatus (opc : BitVec 8) (st : Status) (v : BitVec 16) (c : Option Cursor) (s : State) :
    (raise opc st v c s).lastStatus = some st :=
  State.lastStatus_of_rspQ (raise_rspQ opc st v c s)

/-- Settles O42: both commands take the same case (`font_cases`), and with a glyph both leave its blit. -/
theorem oneCharacterStringIsDrawGlyph : Obligations.OneCharacterStringIsDrawGlyph := by
  unfold Obligations.OneCharacterStringIsDrawGlyph
  intro s x y font ch
  obtain hfont | ⟨F, hfont, hg⟩ | ⟨F, t, k, hfont, hg⟩ := font_cases s.cfg font ch
  · refine ⟨_, _, withFont_none (s := startString x y s) hfont, withGlyph_unconfigured hfont, rfl, ?_⟩
    exact (raise_lastStatus _ _ _ _ _).trans (raise_lastStatus _ _ _ _ _).symm
  · refine ⟨_, _, execDrawString_singleton_none hfont hg, withGlyph_notRepresentable hfont hg, rfl, ?_⟩
    exact (raise_lastStatus _ _ _ _ _).trans (raise_lastStatus _ _ _ _ _).symm
  · obtain ⟨u, r, hu, hrecord, hstatus, hfb⟩ := execDrawString_singleton (x := x) (y := y) hfont hg
    refine ⟨u, _, hu, execDrawGlyph_glyph hfont hg, hfb, ?_⟩
    rw [State.lastStatus_of_rspQ hrecord, State.lastStatus_of_rspQ rfl, hstatus]

/-! ### Below the display -/

theorem putMem_below {cfg : Cfg} {p : Nat} (hp : cfg.pages ≤ p) (c : Nat) (v : Byte) (m : Memory) :
    putMem cfg p c v m = m :=
  if_neg fun h => Nat.not_lt.2 hp h.1

theorem byteMem_below {cfg : Cfg} {p : Nat} (hp : cfg.pages ≤ p) (c off : Nat) (b : Byte) (m : Memory) :
    byteMem cfg p c off b m = m := by
  unfold byteMem
  split
  · exact putMem_below hp c b m
  · rw [putMem_below hp, putMem_below (Nat.le_succ_of_le hp)]

theorem columnsMem_below {cfg : Cfg} {p : Nat} (hp : cfg.pages ≤ p) (row : Nat → Byte) (x off n : Nat) (m : Memory) :
    columnsMem cfg row p x off n m = m := by
  induction n with
  | zero => rfl
  | succ n ih => rw [columnsMem, byteMem_below hp, ih]

theorem rowsMem_below {cfg : Cfg} {p : Nat} (hp : cfg.pages ≤ p) (G : Nat → Nat → Byte) (cols x off n : Nat)
    (m : Memory) : rowsMem cfg G cols p x off n m = m := by
  induction n with
  | zero => rfl
  | succ n ih => rw [rowsMem, columnsMem_below (Nat.le_add_right_of_le hp), ih]

/-- A glyph whose first page is below the display writes nothing (R142). -/
theorem blitMem_below {cfg : Cfg} {y : Nat} (hy : cfg.pages ≤ y / 8) (rows cols : Nat) (G : Nat → Nat → Byte)
    (x : Nat) (m : Memory) : blitMem cfg rows cols G x y m = m :=
  rowsMem_below hy G cols x (y % 8) rows m

/-- The display ends above the page the saturated row lies on (R7, R146). -/
theorem pages_le_sat16 {cfg : Cfg} {v : Nat} (h : cfg.pages ≤ v / 8) : cfg.pages ≤ (sat16 v).toNat / 8 := by
  have hpages := cfg.pages_le
  rw [sat16_toNat]
  omega

/-- The cursor never moves up (R140, R146). -/
theorem afterChar_stays_below (F : Font) (t : Table) (k : Nat) {s : State} (h : s.cfg.pages ≤ s.work.curY.toNat / 8) :
    s.cfg.pages ≤ (afterChar F t k s).work.curY.toNat / 8 := by
  rw [afterChar_curY]
  split
  · exact pages_le_sat16 (by omega)
  · exact h

/-- The loop leaves the frame buffer alone below the display (R142). -/
theorem drawChars_below {fsel : FontSel} {F : Font} (hF : F.Facts fsel) {text : List CharCode} {s t : State}
    {st : Status} (hbelow : s.cfg.pages ≤ s.work.curY.toNat / 8) (h : drawChars F text s = .ok (st, t)) :
    t.fb = s.fb := by
  induction text generalizing s with
  | nil => cases h; rfl
  | cons ch text ih =>
    cases hg : glyphIndex F ch with
    | none => cases (drawChars_none hg text s).symm.trans h; rfl
    | some g =>
      have hlater := (drawChars_some hF hg text s).symm.trans h
      have hfb : (afterChar F g.1 g.2 s).fb = s.fb := by rw [afterChar_fb, blitMem_below hbelow]
      have hcfg := afterChar_cfg F g.1 g.2 s
      exact (ih (hcfg ▸ afterChar_stays_below F g.1 g.2 hbelow) hlater).trans hfb

/-- Settles O44: `drawChars_below` for the frame buffer, `drawChars_completes` for the status. -/
theorem stringBelowTheDisplay : Obligations.StringBelowTheDisplay := by
  unfold Obligations.StringBelowTheDisplay
  intro s x y font F text hfont hy
  have hF := resolveFont_facts hfont
  obtain ⟨st, t, hdrawn, -, -, hok⟩ := drawChars_completes hF text (startString x y s)
  refine ⟨_, execDrawString_drawChars hfont hdrawn, ?_, ?_⟩
  · rw [endString_eq, State.respond_fb, drawChars_below (s := startString x y s) hF hy hdrawn, startString_fb]
  · rw [endString_eq, State.lastStatus_of_rspQ (State.respond_rspQ _ _), ← hok]
    exact Option.some_inj

/-! ### A text in two commands -/

/-- Two states from which the loop draws the same: the count of characters may differ. -/
structure SameCanvas (s t : State) : Prop where
  cfg : t.cfg = s.cfg
  fb : t.fb = s.fb
  curX : t.work.curX = s.work.curX
  curY : t.work.curY = s.work.curY

theorem afterChar_sameCanvas (F : Font) (t : Table) (k : Nat) {s s' : State} (h : SameCanvas s s') :
    SameCanvas (afterChar F t k s) (afterChar F t k s') where
  cfg := by simp [h.cfg]
  fb := by simp [h.cfg, h.fb, h.curX, h.curY]
  curX := by simp [afterChar_curX, h.cfg, h.curX]
  curY := by simp [afterChar_curY, h.cfg, h.curX, h.curY]

/-- The count of characters shows in no byte the loop draws (R140). -/
theorem drawChars_sameCanvas {fsel : FontSel} {F : Font} (hF : F.Facts fsel) {text : List CharCode} {s s' t : State}
    {st : Status} (hsame : SameCanvas s s') (h : drawChars F text s = .ok (st, t)) :
    ∃ t', drawChars F text s' = .ok (st, t') ∧ SameCanvas t t' := by
  induction text generalizing s s' with
  | nil => cases h; exact ⟨s', rfl, hsame⟩
  | cons ch text ih =>
    cases hg : glyphIndex F ch with
    | none => cases (drawChars_none hg text s).symm.trans h; exact ⟨s', drawChars_none hg text s', hsame⟩
    | some g =>
      rw [drawChars_some hF hg] at h ⊢
      exact ih (afterChar_sameCanvas F g.1 g.2 hsame) h

/-- A `DRAW_STRING` whose record is `OK` had its font, and its loop passed the whole text (R91, R140). -/
theorem execDrawString_ok {x y : Coord} {font : FontSel} {text : List CharCode} {s t : State} {r : Response}
    (ht : execDrawString x y font text s = .next t) (hr : t.rspQ = s.rspQ ++ [r]) (hok : r.status = .ok) :
    ∃ F u, resolveFont s.cfg font = some F ∧ drawChars F text (startString x y s) = .ok (.ok, u)
      ∧ t = endString (BitVec.ofNat 16 text.length) .ok u ∧ u.cfg = s.cfg ∧ r.cursor = some u.cursor := by
  cases hfont : resolveFont s.cfg font with
  | none =>
    cases (withFont_none (s := startString x y s) hfont).symm.trans ht
    obtain rfl := List.singleton_inj.1 (List.append_cancel_left hr)
    cases hok
  | some F =>
    obtain ⟨st, u, hdrawn, hkept, -⟩ := drawChars_completes (resolveFont_facts hfont) text (startString x y s)
    cases (execDrawString_drawChars hfont hdrawn).symm.trans ht
    rw [endString_eq, State.respond_rspQ, hkept.rspQ] at hr
    obtain rfl := List.singleton_inj.1 (List.append_cancel_left hr)
    obtain rfl : st = .ok := hok
    exact ⟨F, u, rfl, hdrawn, rfl, hkept.cfg, rfl⟩

/-- Settles O43: after the first text the loop over both goes on from the state the first leaves (`drawChars_append`);
the second command starts from a state with the same canvas. -/
theorem stringsChain : Obligations.StringsChain := by
  unfold Obligations.StringsChain
  intro s t x y font first second r cursor ht hr hok hcursor
  obtain ⟨F, u, hfont, hfirst, rfl, hcfg, hcur⟩ := execDrawString_ok ht hr hok
  have hF := resolveFont_facts hfont
  obtain ⟨st, v, hsecond, -⟩ := drawChars_completes hF second u
  have hboth := (drawChars_append hF hfirst second).trans hsecond
  obtain rfl : cursor = u.cursor := Option.some_inj.1 (hcursor.symm.trans hcur)
  obtain ⟨v', hagain, hsame⟩ := drawChars_sameCanvas hF (s := u)
    (s' := startString u.cursor.x u.cursor.y (endString (BitVec.ofNat 16 first.length) .ok u))
    ⟨rfl, rfl, rfl, rfl⟩ hsecond
  have hfont' : resolveFont (endString (BitVec.ofNat 16 first.length) .ok u).cfg font = some F := by
    rw [endString_eq, State.respond_cfg, hcfg]
    exact hfont
  refine ⟨_, _, execDrawString_drawChars hfont hboth, execDrawString_drawChars hfont' hagain, ?_⟩
  rw [endString_eq, endString_eq]
  exact hsame.fb.symm

end Sys2Proof.Machine
end

section
/-! SUPPORT. The loop of `DRAW_STRING` on the working registers simulates the loop of R140 on unbounded numbers: the
column never saturates, and where the row does, both loops draw below the display (`42_compositor.md` R140 to R146). -/

namespace Sys2Proof.Machine

/-! ### The loop on unbounded numbers -/

/-- The loop at a character with a glyph: blit, advance, wrap, count (R140). -/
theorem drawUnbounded_some {F : Font} {ch : CharCode} {t : Table} {k : Nat} (hg : glyphIndex F ch = some (t, k))
    (width : Nat) (text : List CharCode) (x y : Nat) (pic : Picture) :
    drawUnbounded F width (ch :: text) x y pic =
      let d := drawUnbounded F width text (if width ≤ x + F.width then 0 else x + F.width)
        (if width ≤ x + F.width then y + F.height else y) (pic.blit F.rows F.cols (glyphCell F t k) x y)
      { d with count := d.count + 1 } := by
  simp only [drawUnbounded, hg]
  split <;> rfl

theorem drawUnbounded_none {F : Font} {ch : CharCode} (hg : glyphIndex F ch = none) (width : Nat)
    (text : List CharCode) (x y : Nat) (pic : Picture) :
    drawUnbounded F width (ch :: text) x y pic = ⟨.notRepresentable, 0, x, y, pic⟩ := by
  simp only [drawUnbounded, hg]

/-- With status `OK` every character was counted (R140). -/
theorem drawUnbounded_count {F : Font} {width : Nat} {text : List CharCode} {x y : Nat} {pic : Picture}
    (hok : (drawUnbounded F width text x y pic).status = .ok) :
    (drawUnbounded F width text x y pic).count = text.length := by
  induction text generalizing x y pic with
  | nil => rfl
  | cons ch text ih =>
    cases hg : glyphIndex F ch with
    | none => rw [drawUnbounded_none hg] at hok; cases hok
    | some g =>
      rw [drawUnbounded_some hg] at hok ⊢
      exact congrArg (· + 1) (ih hok)

/-! ### The simulation -/

/-- The state stands where the loop on unbounded numbers stands at `(x, y)` with picture `pic`: the same column, the
row saturated, and the picture as far as the display reaches. -/
structure StandsAt (s : State) (x y : Nat) (pic : Picture) : Prop where
  wf : s.fb.wf
  column : s.work.curX.toNat = x
  row : s.work.curY.toNat = min y 0xFFFF
  cells : ∀ p c, p < s.cfg.pages → c < s.cfg.width → s.cell p c = pic p c

/-- A row that saturates lies below every display, as its saturated value does (R7, R146). -/
theorem stamp_saturated {rows cols : Nat} {G : Nat → Nat → Byte} {p : Nat} (hp : p < 8191) (x y c : Nat) :
    stamp rows cols G x (min y 0xFFFF) p c = stamp rows cols G x y p c := by
  by_cases hy : y ≤ 0xFFFF
  · rw [Nat.min_eq_left hy]
  · rw [Nat.min_eq_right (Nat.le_of_not_le hy), stamp, stamp, if_neg (by omega), if_neg (by omega)]

/-- The cells of the display after a character are those of the picture after it (R131, R140). -/
theorem afterChar_cells {s : State} {x y : Nat} {pic : Picture} (h : StandsAt s x y pic) (F : Font) (t : Table)
    (k : Nat) {p c : Nat} (hp : p < s.cfg.pages) (hc : c < s.cfg.width) :
    (afterChar F t k s).cell p c = pic.blit F.rows F.cols (glyphCell F t k) x y p c := by
  have hpages : p < 8191 := hp.trans_le s.cfg.pages_le
  rw [State.cell, afterChar_fb, afterChar_cfg, blitMem_read_cell h.wf _ _ _ _ _ hp hc, h.column, h.row,
    stamp_saturated hpages]
  exact congrArg (Option.getD _) (h.cells p c hp hc)

/-- A character moves both loops alike (R140, R141, R146). -/
theorem afterChar_standsAt {s : State} {x y : Nat} {pic : Picture} (h : StandsAt s x y pic) (F : Font) (t : Table)
    (k : Nat) : StandsAt (afterChar F t k s) (if s.cfg.width ≤ x + F.width then 0 else x + F.width)
      (if s.cfg.width ≤ x + F.width then y + F.height else y) (pic.blit F.rows F.cols (glyphCell F t k) x y) where
  wf := by rw [afterChar_fb]; exact blitMem_wf h.wf _ _ _ _ _ _
  column := by
    have hwidth := s.cfg.width_le
    rw [afterChar_curX, h.column]
    split
    · rfl
    · rw [sat16_toNat]; omega
  row := by
    rw [afterChar_curY, h.column]
    split
    · rw [sat16_toNat, h.row]; omega
    · exact h.row
  cells := by
    rw [afterChar_cfg]
    exact fun p c => afterChar_cells h F t k

/-- The loop of the model follows the loop on unbounded numbers to its end, and `SI` counts with it (R140, R146). -/
theorem drawChars_simulates {fsel : FontSel} {F : Font} (hF : F.Facts fsel) {text : List CharCode} {s : State}
    {x y : Nat} {pic : Picture} (h : StandsAt s x y pic) {d : Drawn}
    (hd : drawUnbounded F s.cfg.width text x y pic = d) :
    ∃ t, drawChars F text s = .ok (d.status, t) ∧ StandsAt t d.x d.y d.picture
      ∧ t.work.si = s.work.si + BitVec.ofNat 16 d.count := by
  subst hd
  induction text generalizing s x y pic with
  | nil => exact ⟨s, rfl, h, (BitVec.add_zero _).symm⟩
  | cons ch text ih =>
    cases hg : glyphIndex F ch with
    | none =>
      rw [drawUnbounded_none hg]
      exact ⟨s, drawChars_none hg text s, h, (BitVec.add_zero _).symm⟩
    | some g =>
      obtain ⟨t, hdrawn, hstands, hsi⟩ := ih (afterChar_standsAt h F g.1 g.2)
      rw [afterChar_cfg] at hdrawn hstands hsi
      rw [drawUnbounded_some hg, drawChars_some hF hg]
      refine ⟨t, hdrawn, hstands, ?_⟩
      rw [hsi, afterChar_si, BitVec.ofNat_add, BitVec.add_assoc, BitVec.add_comm 1]
      rfl

/-- `VAL` is the count in both outcomes: on `OK` it is the length of the text, else `SI` (R72, R140). -/
theorem stringRecord_eq {s : State} {x y : Nat} {pic : Picture} (h : StandsAt s x y pic) {n count : Nat} {st : Status}
    (hok : st = .ok → count = n) (hsi : s.work.si = BitVec.ofNat 16 count) : stringRecord (BitVec.ofNat 16 n) st s
      = { opc := 0x13, status := st, val := BitVec.ofNat 16 count
          cursor := some ⟨BitVec.ofNat 16 x, BitVec.ofNat 16 (min y 0xFFFF)⟩, payload := [] } := by
  have hval : (if st = .ok then BitVec.ofNat 16 n else s.work.si) = BitVec.ofNat 16 count := by
    split
    · next hst => rw [hok hst]
    · exact hsi
  rw [stringRecord, hval, State.cursor, ← h.column, ← h.row, BitVec.ofNat_toNat, BitVec.ofNat_toNat, BitVec.setWidth_eq,
    BitVec.setWidth_eq]

/-- Settles O39: `drawChars_simulates` from the state that `startString` leaves; an address outside the buffer is listed
in no state that meets the invariant. -/
theorem stringMatchesUnboundedLoop : Obligations.StringMatchesUnboundedLoop := by
  unfold Obligations.StringMatchesUnboundedLoop
  rintro s x y font F text ⟨hwf, hwithin, -⟩ hfont - d
  have hF := resolveFont_facts hfont
  have hstart : StandsAt (startString x y s) x.toNat y.toNat s.cell :=
    ⟨hwf, rfl, (Nat.min_eq_left (Nat.le_of_lt_succ y.isLt)).symm, fun _ _ _ _ => rfl⟩
  obtain ⟨t, hdrawn, hstands, hsi⟩ := drawChars_simulates hF hstart (d := d) rfl
  have hkept := DrewChars.of_drawChars hF hdrawn
  have hcfg : t.cfg = s.cfg := hkept.cfg
  refine ⟨_, execDrawString_drawChars hfont hdrawn, ?_⟩
  rw [endString_eq, stringRecord_eq hstands drawUnbounded_count (hsi.trans (BitVec.zero_add _))]
  refine ⟨fun p c hp hc => ?_, fun a ha => ?_, ?_, hkept.cmdQ, hcfg⟩
  · exact hstands.cells p c (hcfg ▸ hp) (hcfg ▸ hc)
  · exact (Memory.read_outside (hkept.within hwithin) ha).trans (Memory.read_outside hwithin ha).symm
  · rw [State.respond_rspQ, hkept.rspQ, startString_rspQ]

end Sys2Proof.Machine
end

section
/-! SUPPORT. The invariant of the LineBuffer through each operation (`48_linebuffer_companion.md` R170), and the worked
examples of the spec, run by the kernel. -/

namespace Sys2Proof.Machine

/-! ### The LineBuffer -/

/-- The ensured line is empty (R163). -/
theorem mem_ensureLine {lines : List (List CharCode)} {line : List CharCode} (h : line ∈ ensureLine lines) :
    line = [] ∨ line ∈ lines := by
  cases lines with
  | nil => exact .inl (List.mem_singleton.1 h)
  | cons l ls => exact .inr h

theorem exists_ensureLine_eq_cons (lines : List (List CharCode)) :
    ∃ head older, ensureLine lines = head :: older := by
  cases lines with
  | nil => exact ⟨[], [], rfl⟩
  | cons head older => exact ⟨head, older, rfl⟩

/-- Padding adds spaces only (R166). -/
theorem mem_padLine {line : List CharCode} {index : Nat} {c : CharCode} (h : c ∈ padLine line index) :
    c ∈ line ∨ c = padSpace :=
  (List.mem_append.1 h).imp_right List.eq_of_mem_replicate

/-- A write adds the written character only (R166). -/
theorem mem_writeAt {line : List CharCode} {index : Nat} {ch c : CharCode} (h : c ∈ writeAt line index ch) :
    c ∈ line ∨ c = ch := by
  unfold writeAt at h
  split at h
  · exact List.mem_or_eq_of_mem_set h
  · exact (List.mem_append.1 h).imp_right List.mem_singleton.1

/-- A control character that is not the written one stands in the written line only where it stood before (R166). -/
theorem not_mem_written {line : List CharCode} {index : Nat} {ch c : CharCode} (hline : c ∉ line)
    (hspace : c ≠ padSpace) (hne : c ≠ ch) : c ∉ writeAt (padLine line index) index ch := by
  intro h
  obtain hpad | rfl := mem_writeAt h
  · exact (mem_padLine hpad).elim hline hspace
  · exact hne rfl

/-- The invariant of the lines ensured before a character's own rule (R163, R170). -/
theorem LineBuffer.Inv.ensured {lb : LineBuffer} (h : lb.Inv) :
    1 ≤ lb.lenMax ∧ (ensureLine lb.lines).length ≤ lb.lenMax
      ∧ ∀ line ∈ ensureLine lb.lines, lineFeed ∉ line ∧ carriageReturn ∉ line := by
  obtain ⟨hpos, hlen, -, -, hplain⟩ := h
  refine ⟨hpos, ensureLine_length_le hpos hlen, fun line hline => ?_⟩
  obtain rfl | hold := mem_ensureLine hline
  · exact ⟨List.not_mem_nil, List.not_mem_nil⟩
  · exact hplain line hold

theorem LineBuffer.Inv.feed {lb : LineBuffer} (h : lb.Inv) : lb.feed.Inv := by
  obtain ⟨hpos, hlen, hplain⟩ := h.ensured
  rw [LineBuffer.feed_eq hlen]
  refine ⟨hpos, List.length_take_le _ _, fun _ _ => Nat.zero_le _, fun _ => rfl, fun line hline => ?_⟩
  obtain rfl | hold := List.mem_cons.1 (List.mem_of_mem_take hline)
  · exact ⟨List.not_mem_nil, List.not_mem_nil⟩
  · exact hplain line hold

theorem LineBuffer.Inv.carriageReturn {lb : LineBuffer} (h : lb.Inv) :
    LineBuffer.Inv ⟨ensureLine lb.lines, lb.lenMax, 0⟩ := by
  obtain ⟨hpos, hlen, hplain⟩ := h.ensured
  exact ⟨hpos, hlen, fun _ _ => Nat.zero_le _, fun _ => rfl, hplain⟩

theorem LineBuffer.Inv.write {lb : LineBuffer} (h : lb.Inv) {ch : CharCode} (hlf : ch ≠ lineFeed)
    (hcr : ch ≠ Machine.carriageReturn) : (lb.write ch).Inv := by
  obtain ⟨hpos, hlen, hplain⟩ := h.ensured
  obtain ⟨head, older, hlines⟩ := exists_ensureLine_eq_cons lb.lines
  rw [LineBuffer.write_eq hlines]
  rw [hlines] at hlen hplain
  refine ⟨hpos, hlen, fun line hline => ?_, fun hnil => absurd hnil (List.cons_ne_nil _ _), fun line hline => ?_⟩
  · cases hline
    have hreach : lb.index ≤ (padLine head lb.index).length := by
      rw [padLine_length]
      exact Nat.le_max_right _ _
    rw [writeAt_length hreach]
    exact Nat.le_max_right _ _
  · obtain rfl | hold := List.mem_cons.1 hline
    · obtain ⟨hheadlf, hheadcr⟩ := hplain head List.mem_cons_self
      exact ⟨not_mem_written hheadlf (by decide) hlf.symm, not_mem_written hheadcr (by decide) hcr.symm⟩
    · exact hplain line (List.mem_cons_of_mem _ hold)

/-- One character keeps the invariant, by the rule of its kind (R162, R170). -/
theorem LineBuffer.Inv.pushChar {lb : LineBuffer} (h : lb.Inv) (ch : CharCode) : (lb.pushChar ch).Inv := by
  by_cases hlf : ch = lineFeed
  · rw [hlf, LineBuffer.pushChar_lineFeed]
    exact h.feed
  by_cases hcr : ch = Machine.carriageReturn
  · rw [hcr, LineBuffer.pushChar_carriageReturn]
    exact h.carriageReturn
  · rw [LineBuffer.pushChar_other hlf hcr]
    exact h.write hlf hcr

theorem LineBuffer.Inv.push {lb : LineBuffer} (h : lb.Inv) (text : List CharCode) : (lb.push text).Inv := by
  induction text generalizing lb with
  | nil => exact h
  | cons ch text ih => exact ih (h.pushChar ch)

/-- A LineBuffer without lines meets the invariant (R161, R168). -/
theorem LineBuffer.inv_empty {n : Nat} (hn : 1 ≤ n) : LineBuffer.Inv ⟨[], n, 0⟩ :=
  ⟨hn, Nat.zero_le n, fun _ h => (nomatch h), fun _ => rfl, fun _ h => nomatch h⟩

/-- Settles O47: `LineBuffer.inv_empty` for `new` and `clear`, and `LineBuffer.Inv.push`, character by character. -/
theorem lineBufferKeepsInvariant : Obligations.LineBufferKeepsInvariant := by
  unfold Obligations.LineBufferKeepsInvariant
  refine ⟨rfl, fun n hn => ⟨if_neg (Nat.ne_of_gt hn), LineBuffer.inv_empty hn⟩, fun lb text h => ⟨h.push text, ?_⟩⟩
  obtain ⟨hpos, -, -⟩ := h.ensured
  exact LineBuffer.inv_empty hpos

/-! ### Fixed texts -/

/-- Settles O51: the kernel runs the three texts. -/
theorem lineBufferExamples : Obligations.LineBufferExamples := by
  unfold Obligations.LineBufferExamples
  decide

/-- Settles O6: the kernel runs the assembler and the decoder on the lines and words listed. -/
theorem workedEncodings : Obligations.WorkedEncodings := by
  unfold Obligations.WorkedEncodings
  decide

end Sys2Proof.Machine
end
